-- ==== Sys2Proof/Word.lean ====
section
/-! DEFINITION. The machine's word types (spec/00_scope.md R6, R8, R10, R19). A physical byte address is a plain number: the
spec states no width for it (R6, D33) and its sums do not wrap (log 7, DESIGN CHOICE). -/

namespace Sys2Proof

/-- A byte of memory: 8 bits (R19). -/
abbrev Byte := BitVec 8

/-- An instruction word: 32 bits (R6, R70). -/
abbrev Word := BitVec 32

/-- A doubleword, the width of every general and floating-point register: 64 bits (R6, R19). -/
abbrev Dword := BitVec 64

/-- A virtual address: 64 bits, sums taken modulo 2^64 (R6, R14). -/
abbrev VAddr := BitVec 64

/-- The 5-bit number of a general or floating-point register (R8, R20, R24). -/
abbrev RegNum := BitVec 5

end Sys2Proof
end

