-- ==== Sys2Proof/Config.lean ====
section
/-! DEFINITION. The launch's parameters (spec/00_scope.md R7): what an implementation or a launch fixes for a whole run.
The source's functions of the platform (`Translate`, `AddrAllowed`, `WatchHit`, `BusFault`) are held as finite tables, so
that a state stays plain data; every function on the finite set of accesses has such a table (log 5). -/

namespace Sys2Proof

/-- Direction of a data access: the arguments LOAD and STORE of `AddressTranslation` (R15, R19). -/
inductive Access where
  | load
  | store
deriving DecidableEq, Repr

/-- Parameter `CORE` (R7): "GS464 based processors" against "GS464E and afterwards". -/
inductive CoreGen where
  | gs464
  | gs464ePlus
deriving DecidableEq, Repr

/-- Parameter `BYTE_ORDER` (R7, R45). -/
inductive ByteOrder where
  | little
  | big
deriving DecidableEq, Repr

/-- Parameter `QUAD_LAYOUT` (R7, R71, R73): the bit layout of format Q. -/
inductive QuadLayout where
  | sourceFigure
  | toolchain
deriving DecidableEq, Repr

/-- The mode of the floating-point register file (R24). `independent64` is the one mode the spec gives meaning to: 32
independent 64-bit registers; a launch in any other mode is refused (R193). -/
inductive FpuMode where
  | independent64
  | other
deriving DecidableEq, Repr

/-- What a translation unit of `Translate` answers (R57): a physical address with its CCA, or one of four exceptions; the
address of `mapped` is that of the unit's first byte. Three of the four are the faults of the translation itself (R136, R163);
Address Error is a cause of `AddrAllowed` being false (R120, R151; log 30, DEDUCED). -/
inductive XlatAnswer where
  | mapped (pAddr : Nat) (cca : Nat)
  | tlbRefill
  | tlbInvalid
  | tlbModified
  | addressError
deriving DecidableEq, Repr

/-- How a translation ends (R136, R163 step 5): a physical address with its CCA, or one of three faults. -/
inductive Translation where
  | mapped (pAddr : Nat) (cca : Nat)
  | tlbRefill
  | tlbInvalid
  | tlbModified
deriving DecidableEq, Repr

/-- One translation unit of `Translate` (R57, R59): the virtual addresses `lo` to `hi`, both included, for loads, for
stores or (`none`) for both, and its answer. -/
structure TransUnit where
  lo     : Nat
  hi     : Nat
  access : Option Access
  answer : XlatAnswer
deriving DecidableEq, Repr

/-- A set of accesses, as a row of the table behind `AddrAllowed` (R58) or `WatchHit` (R159): the virtual addresses `lo` to
`hi`, of one size or (`none`) any, in one direction or (`none`) either. -/
structure AccessPattern where
  lo     : Nat
  hi     : Nat
  size   : Option Nat
  access : Option Access
deriving DecidableEq, Repr

/-- A set of accesses, as a row of the table behind `BusFault` (R155): the physical addresses `lo` to `hi`, of one size or
(`none`) any. -/
structure BusPattern where
  lo   : Nat
  hi   : Nat
  size : Option Nat
deriving DecidableEq, Repr

/-- The parameters of a run (R7, R190); no instruction changes one. -/
structure Params where
  /-- `UNALIGNED`: the source's `systemSupportUnaligned`. -/
  unaligned  : Bool
  /-- `CORE`. -/
  core       : CoreGen
  /-- `BYTE_ORDER`. -/
  byteOrder  : ByteOrder
  /-- `QUAD_LAYOUT`. -/
  quadLayout : QuadLayout
  /-- `Translate`: the first unit that covers the address and direction answers; where none does, the identity. -/
  units      : List TransUnit
  /-- `AddrAllowed` is false on the accesses listed here, and on those that `units` answer with Address Error (log 30). -/
  denied     : List AccessPattern
  /-- `WatchHit` is true on the accesses listed here and false on all others. -/
  watch      : List AccessPattern
  /-- `BusFault` is true on the accesses listed here and false on all others. -/
  busFaults  : List BusPattern
  /-- `HAS_LEXT`: the processor implements this extension; a launch without it is refused (R193). -/
  hasLext    : Bool
  /-- The mode of the floating-point register file; a launch in another mode than `independent64` is refused (R24, R193). -/
  fpuMode    : FpuMode
deriving DecidableEq, Repr

/-- The CCA that the identity translation returns: "Translate(v, acc) = (v, any)" (R57). A free value with no body: no rule
reads it (R44, U14; log 16, DESIGN CHOICE, safe). -/
opaque Config.anyCca : Nat

/-- The parameters `State.reset` holds: the spec's defaults where R7 gives one, and for `UNALIGNED` and `CORE`, which R7
leaves open, the values of the conventions at the head of spec/95_test_vectors.md (log 4, DESIGN CHOICE, unsafe). -/
def Config.vectorConventions : Params where
  unaligned  := false
  core       := .gs464ePlus
  byteOrder  := .little
  quadLayout := .sourceFigure
  units      := []
  denied     := []
  watch      := []
  busFaults  := []
  hasLext    := true
  fpuMode    := .independent64

end Sys2Proof
end

