-- ==== Sys2Proof/Syntax.lean ====
section
/-! DEFINITION. The sixteen instructions (spec/00_scope.md R4, spec/opcode_table.json), one constructor a row. The fields of
the two formats are structures of their own: format Q (spec/30_encoding.md R71, R73) and format X (R74). -/

namespace Sys2Proof

/-- The fields of format Q (R71). `offset` is in units of 16 bytes; it has 9 bits so that it holds the offset of either
layout: under `SOURCE_FIGURE` the sign-extended 8-bit field `w[14:7]`, under `TOOLCHAIN` the 9-bit field `w[14:6]` (R73). -/
structure QFields where
  rs     : RegNum
  rt0    : RegNum
  rt1    : RegNum
  offset : BitVec 9
deriving DecidableEq, Repr

/-- The fields of format X (R74). `offset` is in bytes. -/
structure XFields where
  rs     : RegNum
  rt     : RegNum
  rd     : RegNum
  offset : BitVec 8
deriving DecidableEq, Repr

/-- The sixteen instructions of the opcode table (R4). -/
inductive Instr where
  | gslq    (q : QFields)
  | gslqc1  (q : QFields)
  | gssq    (q : QFields)
  | gssqc1  (q : QFields)
  | gslbx   (x : XFields)
  | gslhx   (x : XFields)
  | gslwx   (x : XFields)
  | gsldx   (x : XFields)
  | gslwxc1 (x : XFields)
  | gsldxc1 (x : XFields)
  | gssbx   (x : XFields)
  | gsshx   (x : XFields)
  | gsswx   (x : XFields)
  | gssdx   (x : XFields)
  | gsswxc1 (x : XFields)
  | gssdxc1 (x : XFields)
deriving DecidableEq, Repr

end Sys2Proof
end

