-- ==== Sys2Proof/WellFormed.lean ====
section
/-! DEFINITION. Which instructions a layout of format Q can encode (spec/30_encoding.md R71, R73, R75, R79). Every value of
a register field is accepted (R79), and their types bound them; the one check is the range of a quad offset. -/

namespace Sys2Proof

/-- A quad offset fits the layout: under `SOURCE_FIGURE` it is the sign extension of 8 bits, -128 to 127 (R75); under
`TOOLCHAIN` every 9-bit offset fits (R73). -/
def QFields.fits (q : QFields) : QuadLayout → Bool
  | .sourceFigure => q.offset == (q.offset.setWidth 8).signExtend 9
  | .toolchain    => true

/-- The instruction has a word under the layout. -/
def Instr.wellFormed (l : QuadLayout) : Instr → Bool
  | .gslq q    => q.fits l
  | .gslqc1 q  => q.fits l
  | .gssq q    => q.fits l
  | .gssqc1 q  => q.fits l
  | .gslbx _   => true
  | .gslhx _   => true
  | .gslwx _   => true
  | .gsldx _   => true
  | .gslwxc1 _ => true
  | .gsldxc1 _ => true
  | .gssbx _   => true
  | .gsshx _   => true
  | .gsswx _   => true
  | .gssdx _   => true
  | .gsswxc1 _ => true
  | .gssdxc1 _ => true

end Sys2Proof
end

