-- ==== Sys2Proof/Decode.lean ====
section
/-! DEFINITION. Decoding and encoding (spec/30_encoding.md R70 to R83), total on any bytes, refusing by name. -/

namespace Sys2Proof

/-- Why bytes decode to no instruction. The first four are the refusals of R79. -/
inductive DecodeError where
  /-- `Reserved_Q_fmt0` (R80). -/
  | reservedQFmt0
  /-- `Reserved_Q_RT1_bit5` (R81). -/
  | reservedQRt1Bit5
  /-- `Reserved_X_OP0` (R82). -/
  | reservedXOp0
  /-- `Not_In_Scope` (R83). -/
  | notInScope
  /-- Fewer than the four bytes of an instruction (R70). -/
  | truncated
deriving DecidableEq, Repr

/-- The unsigned value of bytes, the first the least significant (R45, `LITTLE`). -/
def assemble : List Byte → Nat
  | []      => 0
  | b :: bs => b.toNat + 256 * assemble bs

/-- The bytes of a value by rising address against the bytes from its least significant one (R45): the same list under
`LITTLE`, reversed under `BIG`. -/
def ByteOrder.arrange : ByteOrder → List Byte → List Byte
  | .little, bs => bs
  | .big,    bs => bs.reverse

/-- The `n` bytes of a value, from the least significant (R45). -/
def splitBytes {w : Nat} (n : Nat) (v : BitVec w) : List Byte :=
  (List.range n).map fun k => v.extractLsb' (8 * k) 8

/-- The four bytes of an instruction word by rising address (R70). -/
def wordBytes (o : ByteOrder) (w : Word) : List Byte := o.arrange (splitBytes 4 w)

/-- MAJOR_OP of the quad loads: 0x32 (R77). -/
def opQuadLoad : BitVec 6 := 0x32#6
/-- MAJOR_OP of the quad stores: 0x3A (R77). -/
def opQuadStore : BitVec 6 := 0x3A#6
/-- MAJOR_OP of the indexed loads: 0x36 (R78). -/
def opIndexedLoad : BitVec 6 := 0x36#6
/-- MAJOR_OP of the indexed stores: 0x3E (R78). -/
def opIndexedStore : BitVec 6 := 0x3E#6

/-- The offset of a format Q word: `w[14:7]` sign-extended (R75), or `w[14:6]` under `TOOLCHAIN` (R73). -/
def quadOffset : QuadLayout → Word → BitVec 9
  | .sourceFigure, w => (w.extractLsb' 7 8).signExtend 9
  | .toolchain,    w => w.extractLsb' 6 9

/-- The fields of a format Q word (R71, R73). -/
def quadFields (l : QuadLayout) (w : Word) : QFields where
  rs     := w.extractLsb' 21 5
  rt0    := w.extractLsb' 16 5
  rt1    := w.extractLsb' 0 5
  offset := quadOffset l w

/-- The fields of a format X word (R74). -/
def indexedFields (w : Word) : XFields where
  rs     := w.extractLsb' 21 5
  rt     := w.extractLsb' 16 5
  rd     := w.extractLsb' 11 5
  offset := w.extractLsb' 3 8

/-- Which words of format Q are reserved: under `SOURCE_FIGURE` those with bit 6 clear (R80), then those with bit 5 set
(R81). Under `TOOLCHAIN` the table's `fmt` is bit 5 (90_conflicts.md C1), so those with bit 5 clear are `Reserved_Q_fmt0`
(log 13, DEDUCED). -/
def quadReserved : QuadLayout → Word → Option DecodeError
  | .sourceFigure, w =>
    if w.extractLsb' 6 1 = 0#1 then some .reservedQFmt0
    else if w.extractLsb' 5 1 = 1#1 then some .reservedQRt1Bit5
    else none
  | .toolchain, w => if w.extractLsb' 5 1 = 0#1 then some .reservedQFmt0 else none

/-- A format Q word whose MAJOR_OP is that of a load (`true`) or of a store (R77, R79); bit 15 is C1. -/
def decodeQuad (l : QuadLayout) (isLoad : Bool) (w : Word) : Except DecodeError Instr :=
  match quadReserved l w with
  | some e => .error e
  | none   =>
    let q := quadFields l w
    let c1 := w.extractLsb' 15 1 == 1#1
    match isLoad, c1 with
    | true,  false => .ok (.gslq q)
    | true,  true  => .ok (.gslqc1 q)
    | false, false => .ok (.gssq q)
    | false, true  => .ok (.gssqc1 q)

/-- A format X word whose MAJOR_OP is that of a load: OP0 selects the instruction (R78, R79); 4 and 5 are reserved (R82). -/
def decodeIndexedLoad (w : Word) : Except DecodeError Instr :=
  let x := indexedFields w
  let op0 : BitVec 3 := w.extractLsb' 0 3
  if op0 = 0#3 then .ok (.gslbx x)
  else if op0 = 1#3 then .ok (.gslhx x)
  else if op0 = 2#3 then .ok (.gslwx x)
  else if op0 = 3#3 then .ok (.gsldx x)
  else if op0 = 6#3 then .ok (.gslwxc1 x)
  else if op0 = 7#3 then .ok (.gsldxc1 x)
  else .error .reservedXOp0

/-- A format X word whose MAJOR_OP is that of a store (R78, R79); OP0 = 4 and 5 are reserved (R82). -/
def decodeIndexedStore (w : Word) : Except DecodeError Instr :=
  let x := indexedFields w
  let op0 : BitVec 3 := w.extractLsb' 0 3
  if op0 = 0#3 then .ok (.gssbx x)
  else if op0 = 1#3 then .ok (.gsshx x)
  else if op0 = 2#3 then .ok (.gsswx x)
  else if op0 = 3#3 then .ok (.gssdx x)
  else if op0 = 6#3 then .ok (.gsswxc1 x)
  else if op0 = 7#3 then .ok (.gssdxc1 x)
  else .error .reservedXOp0

/-- The decoding procedure for a 32-bit word (R79); every other major opcode is not in scope (R83). -/
def decodeWord (l : QuadLayout) (w : Word) : Except DecodeError Instr :=
  let major : BitVec 6 := w.extractLsb' 26 6
  if major = opQuadLoad then decodeQuad l true w
  else if major = opQuadStore then decodeQuad l false w
  else if major = opIndexedLoad then decodeIndexedLoad w
  else if major = opIndexedStore then decodeIndexedStore w
  else .error .notInScope

/-- The word of four bytes at rising addresses (R70, R45). -/
def wordOfBytes (o : ByteOrder) (bs : List Byte) : Word := BitVec.ofNat 32 (assemble (o.arrange bs))

/-- Decode the first four bytes by rising address and give the rest back (R70, R79). -/
def decode (l : QuadLayout) (o : ByteOrder) : List Byte → Except DecodeError (Instr × List Byte)
  | b0 :: b1 :: b2 :: b3 :: rest =>
    match decodeWord l (wordOfBytes o [b0, b1, b2, b3]) with
    | .ok i    => .ok (i, rest)
    | .error e => .error e
  | _ => .error .truncated

/-! ### The encoder -/

/-- Offset, `fmt` and the fixed bits of a format Q word: under `SOURCE_FIGURE` the offset at 14:7 and `fmt` = 1 at bit 6
(R71); under `TOOLCHAIN` the offset at 14:6 and a fixed 1 at bit 5 (R73). -/
def quadMiddle : QuadLayout → BitVec 9 → Word
  | .sourceFigure, d => (d.setWidth 8).setWidth 32 <<< 7 ||| 1#32 <<< 6
  | .toolchain,    d => d.setWidth 32 <<< 6 ||| 1#32 <<< 5

/-- A format Q word (R71, R77): `MAJOR_OP << 26 | RS << 21 | RT_0 << 16 | C1 << 15 | ... | RT_1`. -/
def quadWord (l : QuadLayout) (major : BitVec 6) (c1 : BitVec 1) (q : QFields) : Word :=
  major.setWidth 32 <<< 26 ||| q.rs.setWidth 32 <<< 21 ||| q.rt0.setWidth 32 <<< 16 ||| c1.setWidth 32 <<< 15
    ||| quadMiddle l q.offset ||| q.rt1.setWidth 32

/-- A format X word (R74, R78): `MAJOR_OP << 26 | RS << 21 | RT << 16 | RD << 11 | offset << 3 | OP0`. -/
def indexedWord (major : BitVec 6) (op0 : BitVec 3) (x : XFields) : Word :=
  major.setWidth 32 <<< 26 ||| x.rs.setWidth 32 <<< 21 ||| x.rt.setWidth 32 <<< 16 ||| x.rd.setWidth 32 <<< 11
    ||| x.offset.setWidth 32 <<< 3 ||| op0.setWidth 32

/-- The word of a well-formed instruction (R77, R78). -/
def encode (l : QuadLayout) : Instr → Word
  | .gslq q    => quadWord l opQuadLoad 0#1 q
  | .gslqc1 q  => quadWord l opQuadLoad 1#1 q
  | .gssq q    => quadWord l opQuadStore 0#1 q
  | .gssqc1 q  => quadWord l opQuadStore 1#1 q
  | .gslbx x   => indexedWord opIndexedLoad 0#3 x
  | .gslhx x   => indexedWord opIndexedLoad 1#3 x
  | .gslwx x   => indexedWord opIndexedLoad 2#3 x
  | .gsldx x   => indexedWord opIndexedLoad 3#3 x
  | .gslwxc1 x => indexedWord opIndexedLoad 6#3 x
  | .gsldxc1 x => indexedWord opIndexedLoad 7#3 x
  | .gssbx x   => indexedWord opIndexedStore 0#3 x
  | .gsshx x   => indexedWord opIndexedStore 1#3 x
  | .gsswx x   => indexedWord opIndexedStore 2#3 x
  | .gssdx x   => indexedWord opIndexedStore 3#3 x
  | .gsswxc1 x => indexedWord opIndexedStore 6#3 x
  | .gssdxc1 x => indexedWord opIndexedStore 7#3 x

/-- What the decoder reads from an opcode-table row's word `w` of `nbits` bits, laid out in memory as the launch of
`State.reset` stores it; spec/opcode_table.json is written for the layout `SOURCE_FIGURE` (R7, R77). -/
def decodeTableWord (nbits w : Nat) : Option Instr :=
  match decode .sourceFigure .little (wordBytes .little (BitVec.ofNat 32 (w % 2 ^ nbits))) with
  | .ok (i, _) => some i
  | .error _   => none

end Sys2Proof
end

