-- ==== Sys2Proof/Machine/Memory.lean ====
section
/-! DEFINITION. Memory (spec/20_memory.md R40, R45, R55): a canonical list of address and byte pairs, and the accesses of
several bytes built from its bytes in one place. Which addresses exist is a separate list of regions (R56, R58). -/

namespace Sys2Proof.Machine

/-- Memory's contents by physical byte address (R40). -/
abbrev Memory := List Host.Cell

/-- What a byte that no cell lists reads as (log 6, DESIGN CHOICE, unsafe). -/
def Memory.unlisted : Byte := 0#8

/-- The canonical form: addresses strictly rising, and no cell equal to what an unlisted address reads as. -/
abbrev Memory.wf (m : Memory) : Prop :=
  m.Pairwise (fun c d => c.1 < d.1) ∧ ∀ c ∈ m, c.2 ≠ Memory.unlisted

/-- The byte at an address. -/
def Memory.read : Memory → Nat → Byte
  | [],          _ => Memory.unlisted
  | (k, b) :: m, a => if k = a then b else Memory.read m a

/-- Put a cell at its place in a list of rising addresses. -/
def Memory.place : Memory → Nat → Byte → Memory
  | [],          a, b => [(a, b)]
  | (k, c) :: m, a, b => if a < k then (a, b) :: (k, c) :: m else (k, c) :: Memory.place m a b

/-- The memory without an address. -/
def Memory.without (m : Memory) (a : Nat) : Memory := m.filter fun c => c.1 != a

/-- Write one byte; writing what an unlisted address reads as leaves the address unlisted. -/
def Memory.write (m : Memory) (a : Nat) (b : Byte) : Memory :=
  if b = Memory.unlisted then m.without a else (m.without a).place a b

/-- The `n` bytes from an address, by rising address. -/
def Memory.readBytes (m : Memory) (a : Nat) : Nat → List Byte
  | 0     => []
  | n + 1 => m.read a :: m.readBytes (a + 1) n

/-- Write bytes by rising address. -/
def Memory.writeBytes (m : Memory) (a : Nat) : List Byte → Memory
  | []      => m
  | b :: bs => (m.write a b).writeBytes (a + 1) bs

/-- `MemRead(pAddr, n)` of R15 in a byte order (R45). -/
def Memory.readValue (m : Memory) (o : ByteOrder) (a : Nat) (n : Nat) : BitVec (8 * n) :=
  BitVec.ofNat (8 * n) (assemble (o.arrange (m.readBytes a n)))

/-- `MemWrite(pAddr, n, v)` of R15 in a byte order (R45). -/
def Memory.writeValue (m : Memory) (o : ByteOrder) (a : Nat) (n : Nat) (v : BitVec (8 * n)) : Memory :=
  m.writeBytes a (o.arrange (splitBytes n v))

/-- A run of physical byte addresses that exist (R56, R190). -/
structure Region where
  base : Nat
  size : Nat
deriving DecidableEq, Repr

/-- The address lies in the region. -/
def Region.holds (r : Region) (a : Nat) : Bool := r.base ≤ a && a < r.base + r.size

/-- The address is one of the launch memory (R58). -/
def existsAt (ram : List Region) (a : Nat) : Bool := ram.any fun r => r.holds a

/-- Every one of the `n` bytes from `a` is in the launch memory (R58). The first test is a short cut for a run that lies in
one region. -/
def allExist (ram : List Region) (a : Nat) (n : Nat) : Bool :=
  ram.any (fun r => r.base ≤ a && a + n ≤ r.base + r.size) || (List.range n).all fun k => existsAt ram (a + k)

end Sys2Proof.Machine
end

