-- ==== Sys2Proof/Machine/State.lean ====
section
/-! DEFINITION. The machine's state as plain data (spec/10_state.md, spec/70_reset_and_hazards.md R190), the reasons it can
stop (spec/60_exceptions.md R166, R168; R197), and the state after reset. -/

namespace Sys2Proof.Machine

/-- The state: the registers and enables of 10_state.md, and what the launch names (R190). -/
structure State where
  /-- `x[0]` to `x[31]` (R20); every access goes through `readGpr` and `writeGpr` (R21). -/
  x        : Vector Dword 32
  /-- `f[0]` to `f[31]` (R24). -/
  f        : Vector Dword 32
  /-- The virtual address of the instruction (R26). -/
  pc       : VAddr
  /-- Coprocessor 1 is enabled (R29). -/
  cu1      : Bool
  /-- Coprocessor 2 is enabled (R28). -/
  cu2      : Bool
  /-- The contents of the launch memory (R40). -/
  mem      : Memory
  /-- The addresses of the launch memory (R58, R190). -/
  ram      : List Region
  /-- The base address of the program text (R190); a word's bytes are where `Translate` puts its address (R42). -/
  textBase : VAddr
  /-- The number of 32-bit words of the program text (R190); the words are bytes of `mem`. -/
  textLen  : Nat
  /-- The launch's parameters (R7, R190). -/
  params   : Params
deriving DecidableEq, Repr

/-- The eight exceptions the source names (R150), each with what its record holds (R161). -/
inductive Exc where
  /-- Coprocessor Unusable with the coprocessor's number: 2 (R156) or 1 (R157). -/
  | coprocessorUnusable (unit : Nat)
  /-- Reserved Instruction: named by the source and never raised (R106, R158). -/
  | reservedInstruction
  /-- `Translate` answered TLBRefill (R152). -/
  | tlbRefill (access : Access) (vAddr : VAddr)
  /-- `Translate` answered TLBInvalid (R153). -/
  | tlbInvalid (access : Access) (vAddr : VAddr)
  /-- `Translate` answered TLBModified on a store (R154). -/
  | tlbModified (vAddr : VAddr)
  /-- A failed alignment test, or `AddrAllowed` false (R151, R58). -/
  | addressError (access : Access) (vAddr : VAddr)
  /-- `BusFault` true on an indexed store (R155). -/
  | busError (pAddr : Nat) (vAddr : VAddr)
  /-- `WatchHit` true on an indexed form (R159). -/
  | watch (access : Access) (vAddr : VAddr)
deriving DecidableEq, Repr

/-- Why a run stops with an event of the machine (R197). -/
inductive Fault where
  /-- Trap entry as the spec models it (R166): the exception and the pc of the raising instruction; nothing else changes.
  Raised by the sixteen instructions. Safe: the chip would go on to a handler. -/
  | raised (e : Exc) (pc : VAddr)
  /-- Stuck (R58, R197): an access of `size` bytes at `pAddr` not wholly in the launch memory. Raised by the sixteen
  instructions. Safe: the machine has no step there. -/
  | outsideLaunchMemory (access : Access) (pAddr : Nat) (size : Nat)
  /-- The run has ended normally (R196): pc stands just after the program text. Raised by `step`. Safe: the chip would run
  the word that follows. -/
  | runEnded
deriving DecidableEq, Repr

/-- Why the spec gives a situation no meaning (R168). Every refusal is safe. -/
inductive Refusal where
  /-- An instruction that has no meaning yet; raised by `exec` only. Safe. -/
  | notModelled (mnemonic : String)
  /-- `Reserved_Q_fmt0` (R80); raised by `step`'s decoding. Safe. -/
  | reservedQFmt0
  /-- `Reserved_Q_RT1_bit5` (R81); raised by `step`'s decoding. Safe. -/
  | reservedQRt1Bit5
  /-- `Reserved_X_OP0` (R82); raised by `step`'s decoding. Safe. -/
  | reservedXOp0
  /-- `Not_In_Scope` (R83, R195): another major opcode, or a pc outside the program text; raised by `step`. Safe. -/
  | notInScope
  /-- `Quad_Load_Same_Destination` (R108); raised by gslq and gslqc1. Safe. -/
  | quadLoadSameDestination
  /-- `Indexed_On_GS464_CU2_Off` (R134); raised by the twelve indexed forms. Safe. -/
  | indexedOnGs464Cu2Off
  /-- `Store_To_Program_Text` (R62, R194); raised by the stores. Safe. -/
  | storeToProgramText
  /-- `Access_Crosses_Translation_Unit` (R59); raised by the sixteen instructions. Safe. -/
  | accessCrossesTranslationUnit
  /-- `Bad_Launch` (R193); raised by `launch` and `step`. Safe. -/
  | badLaunch
  /-- A step that would wrap pc past the top of the address space (R27); raised by `step`. Safe. -/
  | pcWraps
deriving DecidableEq, Repr

/-- What an instruction answers. -/
abbrev Outcome := Host.Outcome State Fault Refusal

/-- A reason to stop: an event of the machine, or a refusal. -/
inductive Stop where
  | fault (r : Fault)
  | refused (r : Refusal)
deriving DecidableEq, Repr

/-- The machine after reset. The spec defines a launch and states no reset value (R33, R191): the values are the model's
own (logs 1 to 6 and 8). -/
def State.reset : State where
  x        := Vector.replicate 32 0#64
  f        := Vector.replicate 32 0#64
  pc       := 0x100#64
  cu1      := true
  cu2      := true
  mem      := []
  ram      := [⟨0, 2 ^ 64⟩]
  textBase := 0x100#64
  textLen  := 0
  params   := Config.vectorConventions

end Sys2Proof.Machine
end

