-- ==== Sys2Proof/Machine/Ops.lean ====
section
/-! DEFINITION. The named operations over registers, memory and the launch's parameters, and taking an exception
(spec/60_exceptions.md R166). The spec gives no return from an exception (R169). -/

namespace Sys2Proof.Machine

/-! ### Registers -/

/-- `x[r]`; general register 0 reads as zero (R21). -/
def State.readGpr (s : State) (r : RegNum) : Dword := if r = 0#5 then 0#64 else s.x[r.toNat]'r.isLt

/-- `x[r] <- v`; a write to general register 0 is discarded (R21). -/
def State.writeGpr (s : State) (r : RegNum) (v : Dword) : State :=
  { s with x := if r = 0#5 then s.x else s.x.set r.toNat v r.isLt }

/-- `f[r]` (R24). -/
def State.readFpr (s : State) (r : RegNum) : Dword := s.f[r.toNat]'r.isLt

/-- `f[r] <- v`; `f[0]` is an ordinary register (R24). -/
def State.writeFpr (s : State) (r : RegNum) (v : Dword) : State := { s with f := s.f.set r.toNat v r.isLt }

/-- `pc <- pc + 4`, modulo 2^64 (R17, R27). -/
def State.advance (s : State) : State := { s with pc := s.pc + 4#64 }

/-! ### Memory -/

/-- `MemRead(pAddr, n)` in the run's byte order (R15, R45). -/
def State.memRead (s : State) (a : Nat) (n : Nat) : BitVec (8 * n) := s.mem.readValue s.params.byteOrder a n

/-- `MemWrite(pAddr, n, v)` in the run's byte order (R15, R45). -/
def State.memWrite (s : State) (a : Nat) (n : Nat) (v : BitVec (8 * n)) : State :=
  { s with mem := s.mem.writeValue s.params.byteOrder a n v }

/-- The address just after the program text, `text_base + 4 * len` (R190, R196). -/
def State.textEnd (s : State) : Nat := s.textBase.toNat + 4 * s.textLen

/-! ### The platform's functions (R7) -/

/-- The pattern's size or direction is open, or is this one. -/
def matchesOpt {α : Type} [DecidableEq α] (o : Option α) (v : α) : Bool := o.all fun w => w == v

/-- The access belongs to the pattern. -/
def patternCovers (r : AccessPattern) (v : VAddr) (n : Nat) (acc : Access) : Bool :=
  r.lo ≤ v.toNat && v.toNat ≤ r.hi && matchesOpt r.size n && matchesOpt r.access acc

/-- `WatchHit(vAddr, n, acc)` (R159). -/
def watchHit (p : Params) (v : VAddr) (n : Nat) (acc : Access) : Bool := p.watch.any fun r => patternCovers r v n acc

/-- `BusFault(pAddr, n)` (R155). -/
def busFault (p : Params) (a : Nat) (n : Nat) : Bool :=
  p.busFaults.any fun r => r.lo ≤ a && a ≤ r.hi && matchesOpt r.size n

/-- The unit answers for the address in this direction; an answer TLBModified is for stores only (R57). -/
def unitCovers (u : TransUnit) (v : VAddr) (acc : Access) : Bool :=
  u.lo ≤ v.toNat && v.toNat ≤ u.hi && matchesOpt u.access acc && !(u.answer == .tlbModified && acc == .load)

/-- The first unit that covers the address answers Address Error (R57). -/
def answersAddressError (p : Params) (v : VAddr) (acc : Access) : Bool :=
  (p.units.find? fun u => unitCovers u v acc).any fun u => u.answer == .addressError

/-- `AddrAllowed(vAddr, n, acc)` (R58): false on the accesses listed, and where `Translate` has Address Error for an answer,
since the one cause of Address Error beside alignment is this predicate (R120, R151; log 30, DEDUCED). -/
def addrAllowed (p : Params) (v : VAddr) (n : Nat) (acc : Access) : Bool :=
  !(p.denied.any fun r => patternCovers r v n acc) && !answersAddressError p v acc

/-- How a unit ends the translation of an address it covers; a unit of addresses that may not be used ends none (R136). -/
def unitTranslation (u : TransUnit) (v : VAddr) : Option Translation :=
  match u.answer with
  | .mapped base cca => some (.mapped (base + (v.toNat - u.lo)) cca)
  | .tlbRefill       => some .tlbRefill
  | .tlbInvalid      => some .tlbInvalid
  | .tlbModified     => some .tlbModified
  | .addressError    => none

/-- `Translate(vAddr, acc)` (R57, R136) for an address that `AddrAllowed` allows: the first unit that covers it answers, and
where none does the identity. -/
def addressTranslation (p : Params) (v : VAddr) (acc : Access) : Translation :=
  (p.units.findSome? fun u => if unitCovers u v acc = true then unitTranslation u v else none).getD
    (.mapped v.toNat Config.anyCca)

/-- The physical address an instruction is fetched from: `Translate`'s for a load at its virtual address (R42). Where that is an
exception the address itself, since a fetch raises none (R195; log 9, DEDUCED). -/
def fetchAddress (p : Params) (v : VAddr) : Nat :=
  if answersAddressError p v .load = true then v.toNat
  else
    match addressTranslation p v .load with
    | .mapped a _  => a
    | .tlbRefill   => v.toNat
    | .tlbInvalid  => v.toNat
    | .tlbModified => v.toNat

/-- Where word `i` of the program text, at the address `text_base + 4i`, is fetched from (R190, R42). -/
def State.textWordAddress (s : State) (i : Nat) : Nat := fetchAddress s.params (s.textBase + BitVec.ofNat 64 (4 * i))

/-- Every byte that the words of the program text are fetched from is in the launch memory (R190, R193). -/
def State.textExists (s : State) : Bool := (List.range s.textLen).all fun i => allExist s.ram (s.textWordAddress i) 4

/-- Some byte of an access of at least one byte lies in the program text (R62): in `text_base` to `text_base + 4 * len - 1`
as R194 has it, or in the bytes that a word of the text is fetched from (R42; log 9, DEDUCED). -/
def State.touchesText (s : State) (a : Nat) (n : Nat) : Bool :=
  (0 < s.textLen && a < s.textEnd && s.textBase.toNat < a + n)
    || (List.range s.textLen).any fun i => s.textWordAddress i < a + n && a < s.textWordAddress i + 4

/-- The place in the table of the unit that holds an address; the identity translation is one unit, `none` (R59). -/
def unitIndex (p : Params) (v : VAddr) (acc : Access) : Option Nat := p.units.findIdx? fun u => unitCovers u v acc

/-- The bytes of an access do not all lie inside one translation unit (R59). -/
def crossesUnit (p : Params) (v : VAddr) (n : Nat) (acc : Access) : Bool :=
  (List.range n).any fun k => unitIndex p (v + BitVec.ofNat 64 k) acc != unitIndex p v acc

/-! ### Stopping -/

/-- `raise E(info)`: trap entry as the spec models it, a fault record with the exception, its information and the pc of the
raising instruction; nothing else changes (R165, R166). -/
def raise (e : Exc) (s : State) : Stop := .fault (.raised e s.pc)

/-- A stop as an outcome. -/
def Stop.outcome : Stop → Outcome
  | .fault r   => .fault r
  | .refused r => .refused r

end Sys2Proof.Machine
end

