-- ==== Sys2Proof/Machine/Operands.lean ====
section
/-! DEFINITION. The two addressing modes and the request an instruction makes of memory (spec/20_memory.md R41, R43).
The spec has no flags (spec/10_state.md R31), so there is no file of flag computations. -/

namespace Sys2Proof.Machine

/-- The displacement of a quad form in bytes: the offset is sign-extended to 64 bits and then multiplied by 16 (R75). -/
def quadDisp (q : QFields) : Dword := q.offset.signExtend 64 * 16#64

/-- The address of a quad form: `x[RS] + sext_64(offset) * 16` (R41). -/
def quadAddr (s : State) (q : QFields) : VAddr := s.readGpr q.rs + quadDisp q

/-- The displacement of an indexed form in bytes, not scaled (R76). -/
def indexedDisp (x : XFields) : Dword := x.offset.signExtend 64

/-- The address of an indexed form: `x[RS] + x[RD] + sext_64(offset)` (R41). -/
def indexedAddr (s : State) (x : XFields) : VAddr := s.readGpr x.rs + s.readGpr x.rd + indexedDisp x

/-- The two families of the source (R4): format Q and format X. -/
inductive Format where
  | quad
  | indexed
deriving DecidableEq, Repr

/-- An access as the checks of R163 see it: the family, the direction, the bytes moved (R43) and the virtual address. -/
structure Request where
  format : Format
  access : Access
  size   : Nat
  vAddr  : VAddr
deriving DecidableEq, Repr

/-- The request of a quad form: 16 bytes (R43). -/
def quadRequest (s : State) (acc : Access) (q : QFields) : Request := ⟨.quad, acc, 16, quadAddr s q⟩

/-- The request of an indexed form (R43). -/
def indexedRequest (s : State) (acc : Access) (n : Nat) (x : XFields) : Request := ⟨.indexed, acc, n, indexedAddr s x⟩

end Sys2Proof.Machine
end

