-- ==== Sys2Proof/Machine/Checks.lean ====
section
/-! DEFINITION. The checks every instruction makes, in the order of spec/60_exceptions.md R163, and the shape all sixteen
share: checks, one translation, the access, pc + 4 (spec/40_quad_load_store.md R104, spec/41_indexed_load_store.md R132). -/

namespace Sys2Proof.Machine

/-- Steps 1 and 2 of R163. On GS464 with `cu2 = 0` a quad form raises Coprocessor Unusable for coprocessor 2 (R105, R156) and
an indexed form is refused (R134); with `cu1 = 0` a form that touches a floating-point register raises it for coprocessor 1
(R105, R133, R157). -/
def enableStop (s : State) (fmt : Format) (fpr : Bool) : Option Stop :=
  if s.params.core = .gs464 ∧ s.cu2 = false then
    match fmt with
    | .quad    => some (raise (.coprocessorUnusable 2) s)
    | .indexed => some (.refused .indexedOnGs464Cu2Off)
  else if fpr = true ∧ s.cu1 = false then some (raise (.coprocessorUnusable 1) s)
  else none

/-- A quad load with `RT_0 = RT_1` is refused (R108). -/
def sameDestinationStop (q : QFields) : Option Stop :=
  if q.rt0 = q.rt1 then some (.refused .quadLoadSameDestination) else none

/-- Whether the alignment test is made at all (R47): an indexed load tests on every processor (R50), a store and a quad form
only where the processor does not support unaligned access. -/
def testsAlignment (p : Params) (r : Request) : Bool :=
  (r.format == .indexed && r.access == .load) || !p.unaligned

/-- The alignment test fails (R47): the low bits of `vAddr` that the access's size names are not zero. -/
def misaligned (p : Params) (r : Request) : Bool := testsAlignment p r && r.vAddr.toNat % r.size != 0

/-- What stops an access after its translation to `pAddr`: steps 6 and 7 of R163, which concern indexed forms and indexed
stores only (R107, R136); then the translation-unit rule (R59), the launch memory (R58) and the program text (R62), in an
order that is the model's (log 14, DESIGN CHOICE). -/
def admitStop (s : State) (r : Request) (pAddr : Nat) : Option Stop :=
  if r.format = .indexed ∧ watchHit s.params r.vAddr r.size r.access = true then
    some (raise (.watch r.access r.vAddr) s)
  else if r.format = .indexed ∧ r.access = .store ∧ busFault s.params pAddr r.size = true then
    some (raise (.busError pAddr r.vAddr) s)
  else if crossesUnit s.params r.vAddr r.size r.access = true then
    some (.refused .accessCrossesTranslationUnit)
  else if allExist s.ram pAddr r.size = false then
    some (.fault (.outsideLaunchMemory r.access pAddr r.size))
  else if r.access = .store ∧ s.touchesText pAddr r.size = true then
    some (.refused .storeToProgramText)
  else none

/-- The physical address of an access, or the first stop met in steps 3 to 7 of R163: alignment, `AddrAllowed`, the one
translation, and what follows it. -/
def resolve (s : State) (r : Request) : Except Stop Nat :=
  if misaligned s.params r = true then .error (raise (.addressError r.access r.vAddr) s)
  else if addrAllowed s.params r.vAddr r.size r.access = false then .error (raise (.addressError r.access r.vAddr) s)
  else
    match addressTranslation s.params r.vAddr r.access with
    | .tlbRefill   => .error (raise (.tlbRefill r.access r.vAddr) s)
    | .tlbInvalid  => .error (raise (.tlbInvalid r.access r.vAddr) s)
    | .tlbModified => .error (raise (.tlbModified r.vAddr) s)
    | .mapped pAddr _ =>
      match admitStop s r pAddr with
      | some stop => .error stop
      | none      => .ok pAddr

/-- The shape of every instruction: the stops known before the address (`early`), then the access's, and where none applies
the instruction's own effect at the physical address, and pc + 4. A stop changes nothing (R109, R138). -/
def perform (s : State) (early : Option Stop) (r : Request) (effect : Nat → State) : Outcome :=
  match early with
  | some stop => stop.outcome
  | none =>
    match resolve s r with
    | .error stop => stop.outcome
    | .ok pAddr   => .next (effect pAddr).advance

end Sys2Proof.Machine
end

