-- ==== Sys2Proof/Machine/Indexed.lean ====
section
/-! DEFINITION. The meanings of the twelve indexed forms (spec/41_indexed_load_store.md R120 to R131). A narrow load
sign-extends to 64 bits and a narrow store writes the low bits of its register (spec/20_memory.md R52). -/

namespace Sys2Proof.Machine

/-- `gslbx`: load a byte, sign-extended, into a general register (R120). -/
def execGslbx (x : XFields) (s : State) : Outcome :=
  perform s (enableStop s .indexed false) (indexedRequest s .load 1 x) fun a =>
    s.writeGpr x.rt ((s.memRead a 1).signExtend 64)

/-- `gslhx`: load a halfword, sign-extended, into a general register (R121). -/
def execGslhx (x : XFields) (s : State) : Outcome :=
  perform s (enableStop s .indexed false) (indexedRequest s .load 2 x) fun a =>
    s.writeGpr x.rt ((s.memRead a 2).signExtend 64)

/-- `gslwx`: load a word, sign-extended, into a general register (R122). -/
def execGslwx (x : XFields) (s : State) : Outcome :=
  perform s (enableStop s .indexed false) (indexedRequest s .load 4 x) fun a =>
    s.writeGpr x.rt ((s.memRead a 4).signExtend 64)

/-- `gsldx`: load a doubleword into a general register (R123). -/
def execGsldx (x : XFields) (s : State) : Outcome :=
  perform s (enableStop s .indexed false) (indexedRequest s .load 8 x) fun a =>
    s.writeGpr x.rt (s.memRead a 8)

/-- `gslwxc1`: load a word, sign-extended, into a floating-point register (R124; log 23). -/
def execGslwxc1 (x : XFields) (s : State) : Outcome :=
  perform s (enableStop s .indexed true) (indexedRequest s .load 4 x) fun a =>
    s.writeFpr x.rt ((s.memRead a 4).signExtend 64)

/-- `gsldxc1`: load a doubleword into a floating-point register (R125). -/
def execGsldxc1 (x : XFields) (s : State) : Outcome :=
  perform s (enableStop s .indexed true) (indexedRequest s .load 8 x) fun a =>
    s.writeFpr x.rt (s.memRead a 8)

/-- `gssbx`: store the low byte of a general register (R126). -/
def execGssbx (x : XFields) (s : State) : Outcome :=
  perform s (enableStop s .indexed false) (indexedRequest s .store 1 x) fun a =>
    s.memWrite a 1 ((s.readGpr x.rt).extractLsb' 0 8)

/-- `gsshx`: store the low halfword of a general register (R127). -/
def execGsshx (x : XFields) (s : State) : Outcome :=
  perform s (enableStop s .indexed false) (indexedRequest s .store 2 x) fun a =>
    s.memWrite a 2 ((s.readGpr x.rt).extractLsb' 0 16)

/-- `gsswx`: store the low word of a general register (R128). -/
def execGsswx (x : XFields) (s : State) : Outcome :=
  perform s (enableStop s .indexed false) (indexedRequest s .store 4 x) fun a =>
    s.memWrite a 4 ((s.readGpr x.rt).extractLsb' 0 32)

/-- `gssdx`: store a general register as a doubleword (R129). -/
def execGssdx (x : XFields) (s : State) : Outcome :=
  perform s (enableStop s .indexed false) (indexedRequest s .store 8 x) fun a =>
    s.memWrite a 8 (s.readGpr x.rt)

/-- `gsswxc1`: store the low word of a floating-point register (R130). -/
def execGsswxc1 (x : XFields) (s : State) : Outcome :=
  perform s (enableStop s .indexed true) (indexedRequest s .store 4 x) fun a =>
    s.memWrite a 4 ((s.readFpr x.rt).extractLsb' 0 32)

/-- `gssdxc1`: store a floating-point register as a doubleword (R131). -/
def execGssdxc1 (x : XFields) (s : State) : Outcome :=
  perform s (enableStop s .indexed true) (indexedRequest s .store 8 x) fun a =>
    s.memWrite a 8 (s.readFpr x.rt)

end Sys2Proof.Machine
end

