-- ==== Sys2Proof/Machine/Quad.lean ====
section
/-! DEFINITION. The meanings of the four quad forms (spec/40_quad_load_store.md R100 to R103). Two accesses of 8 bytes, at
`pAddr` and `pAddr + 8`, from one translation (R53); every read comes before every write. -/

namespace Sys2Proof.Machine

/-- `gslq`: load a quadword into two general registers (R100). -/
def execGslq (q : QFields) (s : State) : Outcome :=
  perform s ((enableStop s .quad false).or (sameDestinationStop q)) (quadRequest s .load q) fun a =>
    (s.writeGpr q.rt0 (s.memRead a 8)).writeGpr q.rt1 (s.memRead (a + 8) 8)

/-- `gslqc1`: load a quadword into two floating-point registers (R101). -/
def execGslqc1 (q : QFields) (s : State) : Outcome :=
  perform s ((enableStop s .quad true).or (sameDestinationStop q)) (quadRequest s .load q) fun a =>
    (s.writeFpr q.rt0 (s.memRead a 8)).writeFpr q.rt1 (s.memRead (a + 8) 8)

/-- `gssq`: store a quadword from two general registers (R102). -/
def execGssq (q : QFields) (s : State) : Outcome :=
  perform s (enableStop s .quad false) (quadRequest s .store q) fun a =>
    (s.memWrite a 8 (s.readGpr q.rt0)).memWrite (a + 8) 8 (s.readGpr q.rt1)

/-- `gssqc1`: store a quadword from two floating-point registers (R103). -/
def execGssqc1 (q : QFields) (s : State) : Outcome :=
  perform s (enableStop s .quad true) (quadRequest s .store q) fun a =>
    (s.memWrite a 8 (s.readFpr q.rt0)).memWrite (a + 8) 8 (s.readFpr q.rt1)

end Sys2Proof.Machine
end

