-- ==== Sys2Proof/Machine/Dispatch.lean ====
section
/-! DEFINITION. What each instruction does: one arm per constructor of Instr, each one call of its meaning. -/

namespace Sys2Proof.Machine

def exec (i : Instr) (s : State) : Host.Outcome State Fault Refusal :=
  match i with
  | .gslq q => Sys2Proof.Machine.execGslq q s
  | .gslqc1 q => Sys2Proof.Machine.execGslqc1 q s
  | .gssq q => Sys2Proof.Machine.execGssq q s
  | .gssqc1 q => Sys2Proof.Machine.execGssqc1 q s
  | .gslbx x => Sys2Proof.Machine.execGslbx x s
  | .gslhx x => Sys2Proof.Machine.execGslhx x s
  | .gslwx x => Sys2Proof.Machine.execGslwx x s
  | .gsldx x => Sys2Proof.Machine.execGsldx x s
  | .gslwxc1 x => Sys2Proof.Machine.execGslwxc1 x s
  | .gsldxc1 x => Sys2Proof.Machine.execGsldxc1 x s
  | .gssbx x => Sys2Proof.Machine.execGssbx x s
  | .gsshx x => Sys2Proof.Machine.execGsshx x s
  | .gsswx x => Sys2Proof.Machine.execGsswx x s
  | .gssdx x => Sys2Proof.Machine.execGssdx x s
  | .gsswxc1 x => Sys2Proof.Machine.execGsswxc1 x s
  | .gssdxc1 x => Sys2Proof.Machine.execGssdxc1 x s

end Sys2Proof.Machine
end

