-- ==== Sys2Proof/Machine/Launch.lean ====
section
/-! DEFINITION. The launch, fetching an instruction, and the end of a run (spec/70_reset_and_hazards.md R190 to R196). -/

namespace Sys2Proof.Machine

/-- The conditions of R193 that hold of every state of a run, not of its first alone: a misaligned pc or text base, a text
that is not wholly in the launch memory or exceeds the address space, a floating-point register file in another mode, or a
processor without the extension. -/
def badLaunch (s : State) : Bool :=
  s.pc.toNat % 4 != 0 || s.textBase.toNat % 4 != 0 || !s.textExists
    || decide (2 ^ 64 < s.textEnd) || s.params.fpuMode != .independent64 || !s.params.hasLext

/-- pc stands inside the program text (R190, R195). -/
def State.pcInText (s : State) : Bool := s.textBase.toNat ≤ s.pc.toNat && s.pc.toNat < s.textEnd

/-- The launch (R190): a state a run may start from, or `Bad_Launch` (R193). -/
def launch (s : State) : Outcome :=
  if badLaunch s || !s.pcInText then .refused .badLaunch else .next s

/-- A decoding refusal as the machine's (R79, R168). A fetch always has four bytes, so `truncated` does not arise in a
step. -/
def refusalOf : DecodeError → Refusal
  | .reservedQFmt0    => .reservedQFmt0
  | .reservedQRt1Bit5 => .reservedQRt1Bit5
  | .reservedXOp0     => .reservedXOp0
  | .notInScope       => .notInScope
  | .truncated        => .notInScope

/-- The four bytes of the instruction at pc, from the program text (R62, R195), through the same `mem` and `Translate` as data
(R42). The text is present by construction and no exception is raised (R195). -/
def State.fetchBytes (s : State) : List Byte := s.mem.readBytes (fetchAddress s.params s.pc) 4

/-- The start of one step (R195): the end of the run, a pc outside the text, or the decoded instruction at pc. The conditions
of R193 are tested again at every step, since a step may be asked of any state (log 17). -/
def fetch (s : State) : Except Stop Instr :=
  if badLaunch s = true then .error (.refused .badLaunch)
  else if s.pc.toNat = s.textEnd then .error (.fault .runEnded)
  else if s.pcInText = false then .error (.refused .notInScope)
  else
    match decode s.params.quadLayout s.params.byteOrder s.fetchBytes with
    | .ok (i, _) => .ok i
    | .error e   => .error (.refused (refusalOf e))

/-- A run that would wrap pc past the top of the address space is refused (R27; log 12): the instruction's outcome, unless it
is a next state reached from the last instruction address. -/
def guardPcWrap (s : State) (o : Outcome) : Outcome :=
  match o with
  | .next t    => if s.pc.toNat + 4 < 2 ^ 64 then .next t else .refused .pcWraps
  | .fault r   => .fault r
  | .refused r => .refused r

/-- Lay instruction words out in memory where they are fetched from, the first at a virtual address, in the run's byte order
(R70, R190, R42). -/
def placeWords (p : Params) (m : Memory) (v : VAddr) : List Word → Memory
  | []      => m
  | w :: ws => placeWords p (m.writeBytes (fetchAddress p v) (wordBytes p.byteOrder w)) (v + 4#64) ws

/-- The bytes that the words of the program text are fetched from, as regions of the launch memory (R190). -/
def State.textRegions (s : State) : List Region := (List.range s.textLen).map fun i => ⟨s.textWordAddress i, 4⟩

/-- The bytes of the program text made part of the launch memory (R190). -/
def State.withTextMemory (s : State) : State := if s.textExists then s else { s with ram := s.textRegions ++ s.ram }

/-- The launch's program text (R190): `words` laid out from `base`, their bytes made part of the launch memory, and pc at
`base`. -/
def State.withProgram (s : State) (base : VAddr) (words : List Word) : State :=
  State.withTextMemory
    { s with
      mem      := placeWords s.params s.mem base words
      textBase := base
      textLen  := words.length
      pc       := base }

/-- One instruction word placed where the next step fetches: into the text where pc stands in one, else as a program text of
one word at pc. -/
def State.placeAtPc (s : State) (w : Word) : State :=
  if s.pcInText then { s with mem := placeWords s.params s.mem s.pc [w] } else s.withProgram s.pc [w]

end Sys2Proof.Machine
end

