-- ==== Sys2Proof/Machine/Step.lean ====
section
/-! DEFINITION. One step of the machine (spec/70_reset_and_hazards.md R195). -/

namespace Sys2Proof.Machine

/-- One step: fetch and decode the word at pc, execute it, and refuse a wrap of pc (R195, R27). -/
def step (s : State) : Host.Outcome State Fault Refusal :=
  match fetch s with
  | .error stop => stop.outcome
  | .ok i       => guardPcWrap s (exec i s)

/-- The state with an instruction's word stored where `step` fetches its next instruction (log 8). -/
def State.withFetchWord (s : State) (nbits w : Nat) : State := s.placeAtPc (BitVec.ofNat 32 (w % 2 ^ nbits))

end Sys2Proof.Machine
end

