-- ==== Sys2Proof/Safety.lean ====
section
/-! DEFINITION. The terms the claims use: what the spec's tables say of each instruction (spec/20_memory.md R43, R47,
spec/60_exceptions.md R160, R163), when an access goes through, and the invariant of a run. The tables are written here from
the spec a second time, apart from the meanings, so that a claim compares the two. -/

namespace Sys2Proof.Machine

/-! ### The spec's tables, by instruction -/

/-- The fields of a quad form. -/
def quadOperands : Instr → Option QFields
  | .gslq q | .gslqc1 q | .gssq q | .gssqc1 q => some q
  | _ => none

/-- The fields of an indexed form. -/
def indexedOperands : Instr → Option XFields
  | .gslbx x | .gslhx x | .gslwx x | .gsldx x | .gslwxc1 x | .gsldxc1 x
  | .gssbx x | .gsshx x | .gsswx x | .gssdx x | .gsswxc1 x | .gssdxc1 x => some x
  | _ => none

/-- The family (R4). -/
def formatOf : Instr → Format
  | .gslq _ | .gslqc1 _ | .gssq _ | .gssqc1 _ => .quad
  | _ => .indexed

/-- The column "direction" of R43. -/
def accessOf : Instr → Access
  | .gslq _ | .gslqc1 _ | .gslbx _ | .gslhx _ | .gslwx _ | .gsldx _ | .gslwxc1 _ | .gsldxc1 _ => .load
  | .gssq _ | .gssqc1 _ | .gssbx _ | .gsshx _ | .gsswx _ | .gssdx _ | .gsswxc1 _ | .gssdxc1 _ => .store

/-- The column "bytes moved" of R43. -/
def bytesMoved : Instr → Nat
  | .gslq _ | .gslqc1 _ | .gssq _ | .gssqc1 _ => 16
  | .gslbx _ | .gssbx _ => 1
  | .gslhx _ | .gsshx _ => 2
  | .gslwx _ | .gslwxc1 _ | .gsswx _ | .gsswxc1 _ => 4
  | .gsldx _ | .gsldxc1 _ | .gssdx _ | .gssdxc1 _ => 8

/-- The six instructions that read or write a floating-point register (R25). -/
def touchesFpr : Instr → Bool
  | .gslqc1 _ | .gssqc1 _ | .gslwxc1 _ | .gsldxc1 _ | .gsswxc1 _ | .gssdxc1 _ => true
  | _ => false

/-- The virtual address of the access (R41). -/
def addressOf (i : Instr) (s : State) : VAddr :=
  match quadOperands i, indexedOperands i with
  | some q, _      => s.readGpr q.rs + q.offset.signExtend 64 * 16#64
  | none,   some x => s.readGpr x.rs + s.readGpr x.rd + x.offset.signExtend 64
  | none,   none   => 0

/-- A quad load with two equal destinations (R108). -/
def sameDestinations : Instr → Bool
  | .gslq q | .gslqc1 q => q.rt0 == q.rt1
  | _ => false

/-- The general registers an instruction writes (R22, the column "writes"). -/
def gprsWritten : Instr → List RegNum
  | .gslq q => [q.rt0, q.rt1]
  | .gslbx x | .gslhx x | .gslwx x | .gsldx x => [x.rt]
  | _ => []

/-- The floating-point registers an instruction writes (R22). -/
def fprsWritten : Instr → List RegNum
  | .gslqc1 q => [q.rt0, q.rt1]
  | .gslwxc1 x | .gsldxc1 x => [x.rt]
  | _ => []

/-- The table of R160: the exceptions the source lists for an instruction. -/
def listedFor (i : Instr) : Exc → Bool
  | .coprocessorUnusable _ => formatOf i == .quad || touchesFpr i
  | .reservedInstruction   => formatOf i == .quad
  | .tlbRefill _ _         => true
  | .tlbInvalid _ _        => true
  | .tlbModified _         => formatOf i == .indexed && accessOf i == .store
  | .busError _ _          => formatOf i == .indexed && accessOf i == .store
  | .addressError _ _      => true
  | .watch _ _             => formatOf i == .indexed

/-- `Translate` maps the virtual address to this physical address, with whatever CCA. -/
def translatesTo (p : Params) (v : VAddr) (acc : Access) (a : Nat) : Bool :=
  match addressTranslation p v acc with
  | .mapped b _ => b == a
  | _           => false

/-! ### When an instruction goes through -/

/-- The coprocessors an instruction needs are enabled (R105, R133, R134). -/
abbrev CoprocessorsOn (s : State) (fpr : Bool) : Prop :=
  ¬(s.params.core = .gs464 ∧ s.cu2 = false) ∧ (fpr = true → s.cu1 = true)

/-- The alignment test of R47 passes: a quad form and an indexed store are tested where `UNALIGNED` is false, an indexed load
always. -/
abbrev Aligned (s : State) (fmt : Format) (acc : Access) (n : Nat) (v : VAddr) : Prop :=
  (fmt = .indexed ∧ acc = .load) ∨ s.params.unaligned = false → v.toNat % n = 0

/-- No check of R163, of R58, R59 or of R62 stops the access of `n` bytes at `v`, and it is made at the physical address
`a`. -/
abbrev AccessGranted (s : State) (fmt : Format) (acc : Access) (n : Nat) (v : VAddr) (a : Nat) : Prop :=
  Aligned s fmt acc n v
    ∧ addrAllowed s.params v n acc = true
    ∧ translatesTo s.params v acc a = true
    ∧ (fmt = .indexed → watchHit s.params v n acc = false)
    ∧ (fmt = .indexed → acc = .store → busFault s.params a n = false)
    ∧ crossesUnit s.params v n acc = false
    ∧ allExist s.ram a n = true
    ∧ (acc = .store → s.touchesText a n = false)

/-- A byte of the program text: one of the addresses `text_base` to `text_base + 4 * len - 1` (R194), or one that a word of
the text is fetched from (R42, R62; log 9). -/
abbrev State.TextByte (s : State) (b : Nat) : Prop :=
  (s.textBase.toNat ≤ b ∧ b < s.textEnd)
    ∨ ∃ i, i < s.textLen ∧ s.textWordAddress i ≤ b ∧ b < s.textWordAddress i + 4

/-- The instruction at a virtual address is fetched from this physical address: the one `Translate` gives a load there (R42),
or the number of the virtual address where `Translate` answers an exception, since a fetch raises none (R195; log 9). -/
abbrev FetchedFrom (p : Params) (v : VAddr) (a : Nat) : Prop :=
  (answersAddressError p v .load = false ∧ translatesTo p v .load a = true)
    ∨ a = v.toNat ∧ (answersAddressError p v .load = true ∨ addressTranslation p v .load = .tlbRefill
        ∨ addressTranslation p v .load = .tlbInvalid)

/-- What no instruction changes: the enables (R28, R29) and what the launch fixes (R190). -/
abbrev LaunchFixed (s t : State) : Prop :=
  t.cu1 = s.cu1 ∧ t.cu2 = s.cu2 ∧ t.ram = s.ram ∧ t.textBase = s.textBase ∧ t.textLen = s.textLen ∧ t.params = s.params

/-- The physical address of a translation that ends in one. -/
def mappedAddress : Translation → Option Nat
  | .mapped a _ => some a
  | _           => none

/-- The order of R163, with the refusal of R108 in the place R100 and R101 give it: each test with what it leads to. -/
def exceptionOrder (i : Instr) (s : State) : List (Bool × Stop) :=
  let v := addressOf i s
  let n := bytesMoved i
  let acc := accessOf i
  let indexed := formatOf i == .indexed
  let answer := addressTranslation s.params v acc
  [ (s.params.core == .gs464 && !s.cu2,
      if indexed then .refused .indexedOnGs464Cu2Off else .fault (.raised (.coprocessorUnusable 2) s.pc)),
    (touchesFpr i && !s.cu1, .fault (.raised (.coprocessorUnusable 1) s.pc)),
    (sameDestinations i, .refused .quadLoadSameDestination),
    (((indexed && acc == .load) || !s.params.unaligned) && v.toNat % n != 0,
      .fault (.raised (.addressError acc v) s.pc)),
    (!addrAllowed s.params v n acc, .fault (.raised (.addressError acc v) s.pc)),
    (answer == .tlbRefill, .fault (.raised (.tlbRefill acc v) s.pc)),
    (answer == .tlbInvalid, .fault (.raised (.tlbInvalid acc v) s.pc)),
    (answer == .tlbModified, .fault (.raised (.tlbModified v) s.pc)),
    (indexed && watchHit s.params v n acc, .fault (.raised (.watch acc v) s.pc)),
    (indexed && acc == .store && (mappedAddress answer).any (fun a => busFault s.params a n),
      .fault (.raised (.busError ((mappedAddress answer).getD 0) v) s.pc)) ]

/-- What the first true test of a list leads to. -/
def firstTrue : List (Bool × Stop) → Option Stop
  | []               => none
  | (b, stop) :: rest => if b = true then some stop else firstTrue rest

/-! ### Runs -/

/-- The invariant of a run: memory in canonical form and wholly inside the launch memory (R40, R55, R58), the slot of general
register 0 zero (R21), pc and the text base multiples of 4 (R26, R190). -/
abbrev State.Inv (s : State) : Prop :=
  s.mem.wf ∧ (∀ c ∈ s.mem, existsAt s.ram c.1 = true) ∧ s.x[0] = 0#64
    ∧ s.pc.toNat % 4 = 0 ∧ s.textBase.toNat % 4 = 0

/-- The translation units with every CCA changed by `g`. -/
def recolourUnit (g : Nat → Nat) (u : TransUnit) : TransUnit :=
  match u.answer with
  | .mapped a cca => { u with answer := .mapped a (g cca) }
  | _             => u

/-- The state whose translations return other CCAs and are otherwise the same (R44). -/
def State.recolour (g : Nat → Nat) (s : State) : State :=
  { s with params := { s.params with units := s.params.units.map (recolourUnit g) } }

/-- The state with other tables behind `WatchHit` and `BusFault` (R7). -/
def State.rewatch (w : List AccessPattern) (b : List BusPattern) (s : State) : State :=
  { s with params := { s.params with watch := w, busFaults := b } }

/-- An outcome with its next state changed by `g`. -/
def mapNext (g : State → State) : Outcome → Outcome
  | .next t    => .next (g t)
  | .fault r   => .fault r
  | .refused r => .refused r

/-- The access and virtual address an exception's record holds, where it concerns an address (R161). -/
def recordedAddress : Exc → Option VAddr
  | .coprocessorUnusable _ => none
  | .reservedInstruction   => none
  | .tlbRefill _ v         => some v
  | .tlbInvalid _ v        => some v
  | .tlbModified v         => some v
  | .addressError _ v      => some v
  | .busError _ v          => some v
  | .watch _ v             => some v

/-- The direction an exception's record holds, where it holds one (R151 to R153, R159). -/
def recordedAccess : Exc → Option Access
  | .tlbRefill acc _    => some acc
  | .tlbInvalid acc _   => some acc
  | .addressError acc _ => some acc
  | .watch acc _        => some acc
  | _                   => none

end Sys2Proof.Machine
end

