-- ==== Sys2Proof/Certificates/Slice0/Obligations.lean ====
section
/-! DEFINITION. The statements for the provers. Each docstring says which rule of spec/ it formalises, or that a clause is the
spec's own decision or the model's choice and its log entry. -/

open Sys2Proof Sys2Proof.Machine

/-- No bit of an encoding is dropped, under either layout (R71, R73, R74). The layout TOOLCHAIN is general knowledge
(log 13). -/
def Obligations.DecodeInvertsEncode : Prop :=
  ∀ (l : QuadLayout) (i : Instr), i.wellFormed l = true → decodeWord l (encode l i) = .ok i

/-- Every word that decodes is the encoding of the well-formed instruction it decodes to: under SOURCE_FIGURE by R71, R74
and R79; under TOOLCHAIN by R73, general knowledge in the spec (G4; log 13, PRESUMED), with the model's own refusal of quad
words whose bit 5 is clear (log 13, DEDUCED from C1). -/
def Obligations.EncodeInvertsDecode : Prop :=
  ∀ (l : QuadLayout) (w : Word) (i : Instr), decodeWord l w = .ok i → i.wellFormed l = true ∧ encode l i = w

/-- Words written out in the spec decode to the instructions they stand for. (95_test_vectors.md section 2.1.) -/
def Obligations.SpecWordsDecode : Prop :=
  decodeWord .sourceFigure 0xC88200C3 = .ok (.gslq ⟨4, 2, 3, 1⟩)
    ∧ decodeWord .sourceFigure 0xCBA0FFC2 = .ok (.gslqc1 ⟨29, 0, 2, -1⟩)
    ∧ decodeWord .sourceFigure 0xEBA0C042 = .ok (.gssqc1 ⟨29, 0, 2, -128⟩)
    ∧ decodeWord .sourceFigure 0xD8822FF8 = .ok (.gslbx ⟨4, 2, 5, 0xFF⟩)
    ∧ decodeWord .sourceFigure 0xD8802847 = .ok (.gsldxc1 ⟨4, 0, 5, 8⟩)
    ∧ decodeWord .sourceFigure 0xF8822811 = .ok (.gsshx ⟨4, 2, 5, 2⟩)
    ∧ decodeWord .sourceFigure 0xF8822847 = .ok (.gssdxc1 ⟨4, 2, 5, 8⟩)

/-- R80 and R81; refusing them is the spec's own decision (D13, D1). -/
def Obligations.ReservedQuadWordsRefused : Prop :=
  ∀ w : Word,
    (decodeWord .sourceFigure w = .error .reservedQFmt0
      ↔ (w.extractLsb' 26 6 = 0x32#6 ∨ w.extractLsb' 26 6 = 0x3A#6) ∧ w.getLsbD 6 = false)
    ∧ (decodeWord .sourceFigure w = .error .reservedQRt1Bit5
      ↔ (w.extractLsb' 26 6 = 0x32#6 ∨ w.extractLsb' 26 6 = 0x3A#6) ∧ w.getLsbD 6 = true ∧ w.getLsbD 5 = true)

/-- R82 and R83; refusing them is the spec's own decision (D13). -/
def Obligations.ReservedIndexedAndForeignWordsRefused : Prop :=
  ∀ (l : QuadLayout) (w : Word),
    (decodeWord l w = .error .reservedXOp0
      ↔ (w.extractLsb' 26 6 = 0x36#6 ∨ w.extractLsb' 26 6 = 0x3E#6)
        ∧ (w.extractLsb' 0 3 = 4#3 ∨ w.extractLsb' 0 3 = 5#3))
    ∧ (decodeWord l w = .error .notInScope
      ↔ w.extractLsb' 26 6 ≠ 0x32#6 ∧ w.extractLsb' 26 6 ≠ 0x36#6 ∧ w.extractLsb' 26 6 ≠ 0x3A#6
        ∧ w.extractLsb' 26 6 ≠ 0x3E#6)

/-- The layouts accept disjoint sets of quad words (R73, R79, 95 section 2.2). TOOLCHAIN is general knowledge (log
13). -/
def Obligations.QuadLayoutsAcceptDisjointWords : Prop :=
  ∀ (l k : QuadLayout) (w : Word) (i : Instr), l ≠ k → decodeWord l w = .ok i →
    (formatOf i = .quad → ∃ e, decodeWord k w = .error e) ∧ (formatOf i = .indexed → decodeWord k w = .ok i)

/-- A quad word's displacement is its 8-bit offset field, sign-extended to 64 bits and then multiplied by 16. (R75.)
-/
def Obligations.QuadImmediateScaledBySixteen : Prop :=
  ∀ (s : State) (w : Word) (i : Instr) (q : QFields),
    decodeWord .sourceFigure w = .ok i → quadOperands i = some q →
    quadDisp q = (w.extractLsb' 7 8).signExtend 64 * 16#64
      ∧ quadDisp q = (w.extractLsb' 7 8).signExtend 64 <<< 4
      ∧ (quadDisp q).toInt = 16 * (w.extractLsb' 7 8).toInt
      ∧ -2048 ≤ (quadDisp q).toInt ∧ (quadDisp q).toInt ≤ 2032
      ∧ quadAddr s q = quadDisp q + s.readGpr (w.extractLsb' 21 5)

/-- An indexed word's displacement is its 8-bit offset field sign-extended, neither it nor the index scaled. (R76.) -/
def Obligations.IndexedImmediateUnscaled : Prop :=
  ∀ (l : QuadLayout) (s : State) (w : Word) (i : Instr) (x : XFields),
    decodeWord l w = .ok i → indexedOperands i = some x →
    indexedDisp x = (w.extractLsb' 3 8).signExtend 64
      ∧ (indexedDisp x).toInt = (w.extractLsb' 3 8).toInt
      ∧ -128 ≤ (indexedDisp x).toInt ∧ (indexedDisp x).toInt ≤ 127
      ∧ indexedAddr s x = (w.extractLsb' 3 8).signExtend 64 + s.readGpr (w.extractLsb' 11 5)
          + s.readGpr (w.extractLsb' 21 5)

/-- R21, which the spec takes from general knowledge (D3; log 18, PRESUMED). -/
def Obligations.GeneralRegisterZeroHardwired : Prop :=
  ∀ (s : State) (r p : RegNum) (v : Dword),
    s.readGpr 0#5 = 0#64 ∧ s.writeGpr 0#5 v = s
      ∧ (p ≠ 0#5 → (s.writeGpr p v).readGpr r = if r = p then v else s.readGpr r)

/-- Every floating-point register, f[0] included, is one independent 64-bit register. (10_state.md section 2,
92_eei_decisions.md D31.) -/
def Obligations.FloatingRegistersIndependent : Prop :=
  ∀ (s : State) (r p : RegNum) (v : Dword),
    (s.writeFpr p v).readFpr r = (if r = p then v else s.readFpr r) ∧ (s.writeFpr p v).readGpr r = s.readGpr r

/-- The spec defines a launch and gives no reset value (R33, R191): every value is the model's choice (logs 1, 2, 3,
4, 6, 8). -/
def Obligations.ResetHoldsTheLaunchOfTheLog : Prop :=
  (∀ r : RegNum, State.reset.readGpr r = 0#64 ∧ State.reset.readFpr r = 0#64)
    ∧ State.reset.pc = 0x100#64 ∧ State.reset.textBase = 0x100#64 ∧ State.reset.textLen = 0
    ∧ State.reset.cu1 = true ∧ State.reset.cu2 = true ∧ State.reset.mem = []
    ∧ (∀ a, existsAt State.reset.ram a = true ↔ a < 2 ^ 64)
    ∧ State.reset.params = ⟨false, .gs464ePlus, .little, .sourceFigure, [], [], [], [], true, .independent64⟩

/-- R45 for LITTLE; that the order is a parameter with this default is the spec's decision D4 (log 22). -/
def Obligations.LittleEndianByteLanes : Prop :=
  ∀ (m : Memory) (a n k : Nat) (v : BitVec (8 * n)), k < n →
    (m.readValue .little a n).extractLsb' (8 * k) 8 = m.read (a + k)
      ∧ (m.writeValue .little a n v).read (a + k) = v.extractLsb' (8 * k) 8

/-- R45 for BIG; that the order is a parameter is the spec's decision D4 (log 22). -/
def Obligations.BigEndianByteLanes : Prop :=
  ∀ (m : Memory) (a n k : Nat) (v : BitVec (8 * n)), k < n →
    (m.readValue .big a n).extractLsb' (8 * (n - 1 - k)) 8 = m.read (a + k)
      ∧ (m.writeValue .big a n v).read (a + k) = v.extractLsb' (8 * (n - 1 - k)) 8

/-- A value written reads back at its address, and bytes outside it are untouched.
(20_memory.md section 4, side effects, 20_memory.md section 2.) -/
def Obligations.MemoryReadsBackWhatWasWritten : Prop :=
  ∀ (m : Memory) (o : ByteOrder) (a n : Nat) (v : BitVec (8 * n)),
    (m.writeValue o a n v).readValue o a n = v
      ∧ (∀ b, b < a ∨ a + n ≤ b → (m.writeValue o a n v).read b = m.read b)

/-- Under LITTLE, narrower reads inside a doubleword just written see its bits. (20_memory.md section 2, what byte
order does not change.) -/
def Obligations.NarrowReadsOfADoubleword : Prop :=
  ∀ (m : Memory) (a : Nat) (v : Dword),
    (∀ k, k < 8 → (m.writeValue .little a 8 v).readValue .little (a + k) 1 = v.extractLsb' (8 * k) 8)
      ∧ (∀ j, j < 4 → (m.writeValue .little a 8 v).readValue .little (a + 2 * j) 2 = v.extractLsb' (16 * j) 16)
      ∧ (∀ j, j < 2 → (m.writeValue .little a 8 v).readValue .little (a + 4 * j) 4 = v.extractLsb' (32 * j) 32)

/-- gslq puts the doublewords at its address and 8 above it into two general registers and completes.
(40_quad_load_store.md section 1, gslq, Pseudocode, 20_memory.md section 4, a quad form makes two doubleword accesses,
10_state.md section 3.) -/
def Obligations.GslqLoadsTwoDoublewords : Prop :=
  ∀ (q : QFields) (s : State) (a : Nat),
    CoprocessorsOn s false → q.rt0 ≠ q.rt1 →
    AccessGranted s .quad .load 16 (s.readGpr q.rs + q.offset.signExtend 64 * 16#64) a →
    ∃ t, exec (.gslq q) s = .next t
      ∧ (∀ r, t.readGpr r = if r = 0#5 then 0#64 else if r = q.rt0 then s.memRead a 8
          else if r = q.rt1 then s.memRead (a + 8) 8 else s.readGpr r)
      ∧ (∀ r, t.readFpr r = s.readFpr r) ∧ t.mem = s.mem ∧ t.pc = s.pc + 4 ∧ LaunchFixed s t

/-- gslqc1 puts the doublewords at its address and 8 above it into two floating-point registers and completes.
(40_quad_load_store.md section 1, gslqc1, Pseudocode, 20_memory.md section 4, a quad form makes two doubleword
accesses, 10_state.md section 3.) -/
def Obligations.Gslqc1LoadsTwoDoublewords : Prop :=
  ∀ (q : QFields) (s : State) (a : Nat),
    CoprocessorsOn s true → q.rt0 ≠ q.rt1 →
    AccessGranted s .quad .load 16 (s.readGpr q.rs + q.offset.signExtend 64 * 16#64) a →
    ∃ t, exec (.gslqc1 q) s = .next t
      ∧ (∀ r, t.readFpr r = if r = q.rt0 then s.memRead a 8
          else if r = q.rt1 then s.memRead (a + 8) 8 else s.readFpr r)
      ∧ (∀ r, t.readGpr r = s.readGpr r) ∧ t.mem = s.mem ∧ t.pc = s.pc + 4 ∧ LaunchFixed s t

/-- gssq stores two general registers at its address and 8 above it and completes. (40_quad_load_store.md section 1,
gssq, Pseudocode, 20_memory.md section 4, a quad form makes two doubleword accesses, 10_state.md section 3.) -/
def Obligations.GssqStoresTwoDoublewords : Prop :=
  ∀ (q : QFields) (s : State) (a : Nat),
    CoprocessorsOn s false →
    AccessGranted s .quad .store 16 (s.readGpr q.rs + q.offset.signExtend 64 * 16#64) a →
    ∃ t, exec (.gssq q) s = .next t
      ∧ t.memRead a 8 = s.readGpr q.rt0 ∧ t.memRead (a + 8) 8 = s.readGpr q.rt1
      ∧ (∀ b, b < a ∨ a + 16 ≤ b → t.mem.read b = s.mem.read b)
      ∧ (∀ r, t.readGpr r = s.readGpr r) ∧ (∀ r, t.readFpr r = s.readFpr r) ∧ t.pc = s.pc + 4 ∧ LaunchFixed s t

/-- gssqc1 stores two floating-point registers at its address and 8 above it and completes. (40_quad_load_store.md
section 1, gssqc1, Pseudocode, 20_memory.md section 4, a quad form makes two doubleword accesses, 10_state.md section
3.) -/
def Obligations.Gssqc1StoresTwoDoublewords : Prop :=
  ∀ (q : QFields) (s : State) (a : Nat),
    CoprocessorsOn s true →
    AccessGranted s .quad .store 16 (s.readGpr q.rs + q.offset.signExtend 64 * 16#64) a →
    ∃ t, exec (.gssqc1 q) s = .next t
      ∧ t.memRead a 8 = s.readFpr q.rt0 ∧ t.memRead (a + 8) 8 = s.readFpr q.rt1
      ∧ (∀ b, b < a ∨ a + 16 ≤ b → t.mem.read b = s.mem.read b)
      ∧ (∀ r, t.readGpr r = s.readGpr r) ∧ (∀ r, t.readFpr r = s.readFpr r) ∧ t.pc = s.pc + 4 ∧ LaunchFixed s t

/-- gslbx loads a byte, sign-extended, into a general register and completes. (41_indexed_load_store.md section 1,
gslbx, Pseudocode, 10_state.md section 3.) -/
def Obligations.GslbxLoadsSignExtendedByte : Prop :=
  ∀ (x : XFields) (s : State) (a : Nat),
    CoprocessorsOn s false →
    AccessGranted s .indexed .load 1 (s.readGpr x.rs + s.readGpr x.rd + x.offset.signExtend 64) a →
    ∃ t, exec (.gslbx x) s = .next t
      ∧ (∀ r, t.readGpr r = if r = 0#5 then 0#64 else if r = x.rt then (s.memRead a 1).signExtend 64 else s.readGpr r)
      ∧ (∀ r, t.readFpr r = s.readFpr r) ∧ t.mem = s.mem ∧ t.pc = s.pc + 4 ∧ LaunchFixed s t

/-- gslhx loads a halfword, sign-extended, into a general register and completes. (41_indexed_load_store.md section 1,
gslhx, Pseudocode, 10_state.md section 3.) -/
def Obligations.GslhxLoadsSignExtendedHalfword : Prop :=
  ∀ (x : XFields) (s : State) (a : Nat),
    CoprocessorsOn s false →
    AccessGranted s .indexed .load 2 (s.readGpr x.rs + s.readGpr x.rd + x.offset.signExtend 64) a →
    ∃ t, exec (.gslhx x) s = .next t
      ∧ (∀ r, t.readGpr r = if r = 0#5 then 0#64 else if r = x.rt then (s.memRead a 2).signExtend 64 else s.readGpr r)
      ∧ (∀ r, t.readFpr r = s.readFpr r) ∧ t.mem = s.mem ∧ t.pc = s.pc + 4 ∧ LaunchFixed s t

/-- gslwx loads a word, sign-extended, into a general register and completes. (41_indexed_load_store.md section 1,
gslwx, Pseudocode, 10_state.md section 3.) -/
def Obligations.GslwxLoadsSignExtendedWord : Prop :=
  ∀ (x : XFields) (s : State) (a : Nat),
    CoprocessorsOn s false →
    AccessGranted s .indexed .load 4 (s.readGpr x.rs + s.readGpr x.rd + x.offset.signExtend 64) a →
    ∃ t, exec (.gslwx x) s = .next t
      ∧ (∀ r, t.readGpr r = if r = 0#5 then 0#64 else if r = x.rt then (s.memRead a 4).signExtend 64 else s.readGpr r)
      ∧ (∀ r, t.readFpr r = s.readFpr r) ∧ t.mem = s.mem ∧ t.pc = s.pc + 4 ∧ LaunchFixed s t

/-- gsldx loads a doubleword into a general register and completes. (41_indexed_load_store.md section 1, gsldx,
Pseudocode, 10_state.md section 3.) -/
def Obligations.GsldxLoadsDoubleword : Prop :=
  ∀ (x : XFields) (s : State) (a : Nat),
    CoprocessorsOn s false →
    AccessGranted s .indexed .load 8 (s.readGpr x.rs + s.readGpr x.rd + x.offset.signExtend 64) a →
    ∃ t, exec (.gsldx x) s = .next t
      ∧ (∀ r, t.readGpr r = if r = 0#5 then 0#64 else if r = x.rt then s.memRead a 8 else s.readGpr r)
      ∧ (∀ r, t.readFpr r = s.readFpr r) ∧ t.mem = s.mem ∧ t.pc = s.pc + 4 ∧ LaunchFixed s t

/-- gslwxc1 loads a word, sign-extended, into a floating-point register and completes. (41_indexed_load_store.md
section 1, gslwxc1, Pseudocode, 10_state.md section 3, log 23 (the upper half after gslwxc1).) -/
def Obligations.Gslwxc1LoadsSignExtendedWord : Prop :=
  ∀ (x : XFields) (s : State) (a : Nat),
    CoprocessorsOn s true →
    AccessGranted s .indexed .load 4 (s.readGpr x.rs + s.readGpr x.rd + x.offset.signExtend 64) a →
    ∃ t, exec (.gslwxc1 x) s = .next t
      ∧ (∀ r, t.readFpr r = if r = x.rt then (s.memRead a 4).signExtend 64 else s.readFpr r)
      ∧ (∀ r, t.readGpr r = s.readGpr r) ∧ t.mem = s.mem ∧ t.pc = s.pc + 4 ∧ LaunchFixed s t

/-- gsldxc1 loads a doubleword into a floating-point register and completes. (41_indexed_load_store.md section 1,
gsldxc1, Pseudocode, 10_state.md section 3.) -/
def Obligations.Gsldxc1LoadsDoubleword : Prop :=
  ∀ (x : XFields) (s : State) (a : Nat),
    CoprocessorsOn s true →
    AccessGranted s .indexed .load 8 (s.readGpr x.rs + s.readGpr x.rd + x.offset.signExtend 64) a →
    ∃ t, exec (.gsldxc1 x) s = .next t
      ∧ (∀ r, t.readFpr r = if r = x.rt then s.memRead a 8 else s.readFpr r)
      ∧ (∀ r, t.readGpr r = s.readGpr r) ∧ t.mem = s.mem ∧ t.pc = s.pc + 4 ∧ LaunchFixed s t

/-- gssbx stores the low byte of a general register and completes. (41_indexed_load_store.md section 2, gssbx,
Pseudocode, 10_state.md section 3.) -/
def Obligations.GssbxStoresLowByte : Prop :=
  ∀ (x : XFields) (s : State) (a : Nat),
    CoprocessorsOn s false →
    AccessGranted s .indexed .store 1 (s.readGpr x.rs + s.readGpr x.rd + x.offset.signExtend 64) a →
    ∃ t, exec (.gssbx x) s = .next t ∧ t.memRead a 1 = (s.readGpr x.rt).extractLsb' 0 8
      ∧ (∀ b, b < a ∨ a + 1 ≤ b → t.mem.read b = s.mem.read b)
      ∧ (∀ r, t.readGpr r = s.readGpr r) ∧ (∀ r, t.readFpr r = s.readFpr r) ∧ t.pc = s.pc + 4 ∧ LaunchFixed s t

/-- gsshx stores the low halfword of a general register and completes. (41_indexed_load_store.md section 2, gsshx,
Pseudocode, 10_state.md section 3.) -/
def Obligations.GsshxStoresLowHalfword : Prop :=
  ∀ (x : XFields) (s : State) (a : Nat),
    CoprocessorsOn s false →
    AccessGranted s .indexed .store 2 (s.readGpr x.rs + s.readGpr x.rd + x.offset.signExtend 64) a →
    ∃ t, exec (.gsshx x) s = .next t ∧ t.memRead a 2 = (s.readGpr x.rt).extractLsb' 0 16
      ∧ (∀ b, b < a ∨ a + 2 ≤ b → t.mem.read b = s.mem.read b)
      ∧ (∀ r, t.readGpr r = s.readGpr r) ∧ (∀ r, t.readFpr r = s.readFpr r) ∧ t.pc = s.pc + 4 ∧ LaunchFixed s t

/-- gsswx stores the low word of a general register and completes. (41_indexed_load_store.md section 2, gsswx,
Pseudocode, 10_state.md section 3.) -/
def Obligations.GsswxStoresLowWord : Prop :=
  ∀ (x : XFields) (s : State) (a : Nat),
    CoprocessorsOn s false →
    AccessGranted s .indexed .store 4 (s.readGpr x.rs + s.readGpr x.rd + x.offset.signExtend 64) a →
    ∃ t, exec (.gsswx x) s = .next t ∧ t.memRead a 4 = (s.readGpr x.rt).extractLsb' 0 32
      ∧ (∀ b, b < a ∨ a + 4 ≤ b → t.mem.read b = s.mem.read b)
      ∧ (∀ r, t.readGpr r = s.readGpr r) ∧ (∀ r, t.readFpr r = s.readFpr r) ∧ t.pc = s.pc + 4 ∧ LaunchFixed s t

/-- gssdx stores all 64 bits of a general register and completes. (41_indexed_load_store.md section 2, gssdx,
Pseudocode, 10_state.md section 3.) -/
def Obligations.GssdxStoresDoubleword : Prop :=
  ∀ (x : XFields) (s : State) (a : Nat),
    CoprocessorsOn s false →
    AccessGranted s .indexed .store 8 (s.readGpr x.rs + s.readGpr x.rd + x.offset.signExtend 64) a →
    ∃ t, exec (.gssdx x) s = .next t ∧ t.memRead a 8 = s.readGpr x.rt
      ∧ (∀ b, b < a ∨ a + 8 ≤ b → t.mem.read b = s.mem.read b)
      ∧ (∀ r, t.readGpr r = s.readGpr r) ∧ (∀ r, t.readFpr r = s.readFpr r) ∧ t.pc = s.pc + 4 ∧ LaunchFixed s t

/-- gsswxc1 stores the low word of a floating-point register and completes. (41_indexed_load_store.md section 2,
gsswxc1, Pseudocode, 10_state.md section 3.) -/
def Obligations.Gsswxc1StoresLowWord : Prop :=
  ∀ (x : XFields) (s : State) (a : Nat),
    CoprocessorsOn s true →
    AccessGranted s .indexed .store 4 (s.readGpr x.rs + s.readGpr x.rd + x.offset.signExtend 64) a →
    ∃ t, exec (.gsswxc1 x) s = .next t ∧ t.memRead a 4 = (s.readFpr x.rt).extractLsb' 0 32
      ∧ (∀ b, b < a ∨ a + 4 ≤ b → t.mem.read b = s.mem.read b)
      ∧ (∀ r, t.readGpr r = s.readGpr r) ∧ (∀ r, t.readFpr r = s.readFpr r) ∧ t.pc = s.pc + 4 ∧ LaunchFixed s t

/-- gssdxc1 stores all 64 bits of a floating-point register and completes. (41_indexed_load_store.md section 2,
gssdxc1, Pseudocode, 10_state.md section 3.) -/
def Obligations.Gssdxc1StoresDoubleword : Prop :=
  ∀ (x : XFields) (s : State) (a : Nat),
    CoprocessorsOn s true →
    AccessGranted s .indexed .store 8 (s.readGpr x.rs + s.readGpr x.rd + x.offset.signExtend 64) a →
    ∃ t, exec (.gssdxc1 x) s = .next t ∧ t.memRead a 8 = s.readFpr x.rt
      ∧ (∀ b, b < a ∨ a + 8 ≤ b → t.mem.read b = s.mem.read b)
      ∧ (∀ r, t.readGpr r = s.readGpr r) ∧ (∀ r, t.readFpr r = s.readFpr r) ∧ t.pc = s.pc + 4 ∧ LaunchFixed s t

/-- R47 with R48 and R50: the low bits tested are those of the access's size, 16 for a quad form, none for a byte; that an
indexed load is tested on every processor is log 29 (DEDUCED). The second clause, that Address Error has no other cause than a
listed access or the answer of a unit, is R57, R58 and R151 in the table form of log 5 (DESIGN CHOICE), with log 30
(DEDUCED). -/
def Obligations.AlignmentTableDecidesAddressErrors : Prop :=
  ∀ (i : Instr) (s : State),
    (CoprocessorsOn s (touchesFpr i) → sameDestinations i = false →
      (formatOf i = .indexed ∧ accessOf i = .load ∨ s.params.unaligned = false) →
      (addressOf i s).toNat % bytesMoved i ≠ 0 →
      ∃ acc pc, exec i s = .fault (.raised (.addressError acc (addressOf i s)) pc))
    ∧ (∀ acc v pc, exec i s = .fault (.raised (.addressError acc v) pc) →
      ((addressOf i s).toNat % bytesMoved i = 0
        ∨ (formatOf i = .quad ∨ accessOf i = .store) ∧ s.params.unaligned = true) →
      (∃ r ∈ s.params.denied, patternCovers r (addressOf i s) (bytesMoved i) (accessOf i) = true)
        ∨ ∃ u, s.params.units.find? (fun u => unitCovers u (addressOf i s) (accessOf i)) = some u
          ∧ u.answer = .addressError)

/-- On GS464 with CU2 off a quad form raises Coprocessor Unusable (2) and an indexed form is refused; later cores
never raise it (R156, R105). The refusal is the spec's decision D36 (R134; log 26, DEDUCED), and that number 2 is reported
before number 1 is its decision D10 (log 25, DEDUCED). -/
def Obligations.CoprocessorTwoNeededOnGs464Only : Prop :=
  ∀ (i : Instr) (s : State),
    (s.params.core = .gs464 → s.cu2 = false →
      (formatOf i = .quad → ∃ pc, exec i s = .fault (.raised (.coprocessorUnusable 2) pc))
        ∧ (formatOf i = .indexed → exec i s = .refused .indexedOnGs464Cu2Off))
    ∧ (s.params.core = .gs464ePlus → ∀ pc, exec i s ≠ .fault (.raised (.coprocessorUnusable 2) pc))

/-- R157 and R133, the spec's own reading (D9; log 24). -/
def Obligations.CoprocessorOneNeededForFloatingForms : Prop :=
  ∀ (i : Instr) (s : State), ¬(s.params.core = .gs464 ∧ s.cu2 = false) →
    ((∃ pc, exec i s = .fault (.raised (.coprocessorUnusable 1) pc)) ↔ touchesFpr i = true ∧ s.cu1 = false)

/-- TLB Refill, TLB Invalid and TLB Modified are raised exactly on Translate's answer (R152, R153, R154). That gssq and
gssqc1 raise TLB Modified is the spec's decision D34 (R107; log 27, DEDUCED); that Translate is a table, whose emptiness
`units ≠ []` rules out, is the model's choice (log 5, DESIGN CHOICE). -/
def Obligations.TlbExceptionsFollowTranslate : Prop :=
  ∀ (i : Instr) (s : State),
    (CoprocessorsOn s (touchesFpr i) → sameDestinations i = false →
      Aligned s (formatOf i) (accessOf i) (bytesMoved i) (addressOf i s) →
      addrAllowed s.params (addressOf i s) (bytesMoved i) (accessOf i) = true →
      (addressTranslation s.params (addressOf i s) (accessOf i) = .tlbRefill →
        ∃ pc, exec i s = .fault (.raised (.tlbRefill (accessOf i) (addressOf i s)) pc))
      ∧ (addressTranslation s.params (addressOf i s) (accessOf i) = .tlbInvalid →
        ∃ pc, exec i s = .fault (.raised (.tlbInvalid (accessOf i) (addressOf i s)) pc))
      ∧ (addressTranslation s.params (addressOf i s) (accessOf i) = .tlbModified →
        ∃ pc, exec i s = .fault (.raised (.tlbModified (addressOf i s)) pc)))
    ∧ (∀ acc v pc, exec i s = .fault (.raised (.tlbRefill acc v) pc) →
        acc = accessOf i ∧ v = addressOf i s ∧ addressTranslation s.params v acc = .tlbRefill ∧ s.params.units ≠ [])
    ∧ (∀ acc v pc, exec i s = .fault (.raised (.tlbInvalid acc v) pc) →
        acc = accessOf i ∧ v = addressOf i s ∧ addressTranslation s.params v acc = .tlbInvalid ∧ s.params.units ≠ [])
    ∧ (∀ v pc, exec i s = .fault (.raised (.tlbModified v) pc) →
        accessOf i = .store ∧ v = addressOf i s ∧ addressTranslation s.params v .store = .tlbModified ∧ s.params.units ≠ [])

/-- R155, R159, R136; the place of the two tests and that Bus Error is precise are the spec's decisions D10, D16, D17
(logs 25, 31). -/
def Obligations.WatchAndBusErrorFollowTheirParameters : Prop :=
  ∀ (i : Instr) (s : State),
    (∀ acc v pc, exec i s = .fault (.raised (.watch acc v) pc) →
      formatOf i = .indexed ∧ acc = accessOf i ∧ v = addressOf i s
        ∧ watchHit s.params v (bytesMoved i) acc = true)
    ∧ (∀ a v pc, exec i s = .fault (.raised (.busError a v) pc) →
      formatOf i = .indexed ∧ accessOf i = .store ∧ v = addressOf i s
        ∧ translatesTo s.params v .store a = true ∧ busFault s.params a (bytesMoved i) = true)
    ∧ (∀ a, CoprocessorsOn s (touchesFpr i) → formatOf i = .indexed →
      Aligned s .indexed (accessOf i) (bytesMoved i) (addressOf i s) →
      addrAllowed s.params (addressOf i s) (bytesMoved i) (accessOf i) = true →
      translatesTo s.params (addressOf i s) (accessOf i) a = true →
      (watchHit s.params (addressOf i s) (bytesMoved i) (accessOf i) = true →
        exec i s = .fault (.raised (.watch (accessOf i) (addressOf i s)) s.pc))
      ∧ (watchHit s.params (addressOf i s) (bytesMoved i) (accessOf i) = false → accessOf i = .store →
        busFault s.params a (bytesMoved i) = true →
        exec i s = .fault (.raised (.busError a (addressOf i s)) s.pc)))

/-- R160, R106, R158, R161, R166: an exception raised is one the source lists for the instruction, or TLB Modified on gssq and
gssqc1, which the source does not list for them (R107, R154; the spec's decision D34, log 27). What a record holds and that
Reserved Instruction never arises are the spec's decisions (D11, D12; logs 11, 27). -/
def Obligations.OnlyListedExceptionsAreRaised : Prop :=
  ∀ (i : Instr) (s : State) (e : Exc) (pc : VAddr), exec i s = .fault (.raised e pc) →
    (listedFor i e = true ∨ formatOf i = .quad ∧ accessOf i = .store ∧ ∃ v, e = .tlbModified v)
      ∧ e ≠ .reservedInstruction ∧ pc = s.pc
      ∧ (∀ v, recordedAddress e = some v → v = addressOf i s)
      ∧ (∀ acc, recordedAccess e = some acc → acc = accessOf i)

/-- R163; the places of all but the alignment and translation tests are the spec's decision D10 (log 25). -/
def Obligations.FirstTestInPriorityOrderDecides : Prop :=
  ∀ (i : Instr) (s : State),
    (∀ stop, firstTrue (exceptionOrder i s) = some stop → exec i s = stop.outcome)
      ∧ (firstTrue (exceptionOrder i s) = none → ∀ e pc, exec i s ≠ .fault (.raised e pc))

/-- With the default parameters only the coprocessor checks and the alignment test raise, and addresses are not
translated (R163; D14 to D17). That the defaults are empty tables and that the identity translation is made for every
address, not on the launch memory alone, is the model's choice (log 5, DESIGN CHOICE). -/
def Obligations.DefaultParametersRaiseThreeExceptionsOnly : Prop :=
  ∀ (i : Instr) (s : State), s.params.units = [] → s.params.denied = [] → s.params.watch = [] → s.params.busFaults = [] →
    (∀ e pc, exec i s = .fault (.raised e pc) →
      (∃ u, e = .coprocessorUnusable u)
        ∨ e = .addressError (accessOf i) (addressOf i s) ∧ (addressOf i s).toNat % bytesMoved i ≠ 0)
    ∧ (∀ (v : VAddr) (acc : Access) (n : Nat),
      translatesTo s.params v acc v.toNat = true ∧ crossesUnit s.params v n acc = false)

/-- R108, the spec's decision D35 (log 26). -/
def Obligations.SameDestinationQuadLoadRefused : Prop :=
  ∀ (i : Instr) (s : State), CoprocessorsOn s (touchesFpr i) →
    (exec i s = .refused .quadLoadSameDestination ↔ sameDestinations i = true)

/-- R58, R59, R62, R194: where every check before them passes, one of the three stops or a next state; and in every state
each stop has its own cause only. The order of the three stops among themselves is the model's (log 14, DESIGN CHOICE), and
so is that the first is tested on every access, where R59 speaks of misaligned ones (log 15, DESIGN CHOICE). That the text's
bytes are also those its words are fetched from is log 9 (DEDUCED). -/
def Obligations.UnadmittedAccessStops : Prop :=
  ∀ (i : Instr) (s : State),
    (∀ a : Nat, CoprocessorsOn s (touchesFpr i) → sameDestinations i = false →
    Aligned s (formatOf i) (accessOf i) (bytesMoved i) (addressOf i s) →
    addrAllowed s.params (addressOf i s) (bytesMoved i) (accessOf i) = true →
    translatesTo s.params (addressOf i s) (accessOf i) a = true →
    (formatOf i = .indexed → watchHit s.params (addressOf i s) (bytesMoved i) (accessOf i) = false) →
    (formatOf i = .indexed → accessOf i = .store → busFault s.params a (bytesMoved i) = false) →
    if crossesUnit s.params (addressOf i s) (bytesMoved i) (accessOf i) = true then
      exec i s = .refused .accessCrossesTranslationUnit
    else if ∃ k, k < bytesMoved i ∧ existsAt s.ram (a + k) = false then
      exec i s = .fault (.outsideLaunchMemory (accessOf i) a (bytesMoved i))
    else if accessOf i = .store ∧ ∃ k, k < bytesMoved i ∧ s.TextByte (a + k) then
      exec i s = .refused .storeToProgramText
    else ∃ t, exec i s = .next t)
    ∧ (exec i s = .refused .accessCrossesTranslationUnit →
      crossesUnit s.params (addressOf i s) (bytesMoved i) (accessOf i) = true)
    ∧ (∀ acc a n, exec i s = .fault (.outsideLaunchMemory acc a n) →
      acc = accessOf i ∧ n = bytesMoved i ∧ translatesTo s.params (addressOf i s) acc a = true
        ∧ ∃ k, k < n ∧ existsAt s.ram (a + k) = false)
    ∧ (exec i s = .refused .storeToProgramText →
      accessOf i = .store ∧ ∃ a k, translatesTo s.params (addressOf i s) .store a = true ∧ k < bytesMoved i
        ∧ s.TextByte (a + k))

/-- A narrow load copies the loaded value's top bit into all higher bits; a narrow store writes the low bits of its
register (R52). For gslwxc1 the upper 32 bits are the spec's decision D27 (U9; log 23, DEDUCED). What a load to general
register 0 leaves is stated with the results of gslbx, gslhx and gslwx. -/
def Obligations.NarrowLoadsSignExtendNarrowStoresTruncate : Prop :=
  ∀ (x : XFields) (s t : State) (a : Nat),
    (exec (.gslbx x) s = .next t → translatesTo s.params (indexedAddr s x) .load a = true → x.rt ≠ 0#5 →
      (t.readGpr x.rt).extractLsb' 0 8 = s.memRead a 1
        ∧ ∀ j, 8 ≤ j → j < 64 → (t.readGpr x.rt).getLsbD j = (s.memRead a 1).getLsbD 7)
    ∧ (exec (.gslhx x) s = .next t → translatesTo s.params (indexedAddr s x) .load a = true → x.rt ≠ 0#5 →
      (t.readGpr x.rt).extractLsb' 0 16 = s.memRead a 2
        ∧ ∀ j, 16 ≤ j → j < 64 → (t.readGpr x.rt).getLsbD j = (s.memRead a 2).getLsbD 15)
    ∧ (exec (.gslwx x) s = .next t → translatesTo s.params (indexedAddr s x) .load a = true → x.rt ≠ 0#5 →
      (t.readGpr x.rt).extractLsb' 0 32 = s.memRead a 4
        ∧ ∀ j, 32 ≤ j → j < 64 → (t.readGpr x.rt).getLsbD j = (s.memRead a 4).getLsbD 31)
    ∧ (exec (.gslwxc1 x) s = .next t → translatesTo s.params (indexedAddr s x) .load a = true →
      (t.readFpr x.rt).extractLsb' 0 32 = s.memRead a 4
        ∧ ∀ j, 32 ≤ j → j < 64 → (t.readFpr x.rt).getLsbD j = (s.memRead a 4).getLsbD 31)
    ∧ (exec (.gssbx x) s = .next t → translatesTo s.params (indexedAddr s x) .store a = true →
      t.memRead a 1 = (s.readGpr x.rt).extractLsb' 0 8)
    ∧ (exec (.gsshx x) s = .next t → translatesTo s.params (indexedAddr s x) .store a = true →
      t.memRead a 2 = (s.readGpr x.rt).extractLsb' 0 16)
    ∧ (exec (.gsswx x) s = .next t → translatesTo s.params (indexedAddr s x) .store a = true →
      t.memRead a 4 = (s.readGpr x.rt).extractLsb' 0 32)
    ∧ (exec (.gsswxc1 x) s = .next t → translatesTo s.params (indexedAddr s x) .store a = true →
      t.memRead a 4 = (s.readFpr x.rt).extractLsb' 0 32)

/-- The CCA that Translate returns changes nothing: no outcome depends on it. (R44.) -/
def Obligations.CcaIsNeverRead : Prop :=
  ∀ (g : Nat → Nat) (i : Instr) (s : State),
    exec i (s.recolour g) = mapNext (State.recolour g) (exec i s)
      ∧ step (s.recolour g) = mapNext (State.recolour g) (step s)

/-- R107 and R136; that a quad form consults neither is the spec's decision D34 (log 27). -/
def Obligations.QuadFormsIgnoreWatchAndBusFault : Prop :=
  ∀ (i : Instr) (s : State) (w : List AccessPattern) (b : List BusPattern),
    (formatOf i = .quad → exec i (s.rewatch w b) = mapNext (State.rewatch w b) (exec i s))
      ∧ (accessOf i = .load →
        exec i (s.rewatch s.params.watch b) = mapNext (State.rewatch s.params.watch b) (exec i s))

/-- Every indexed load computes its address from the old registers, also where its destination is the base, the index or
general register 0, and a floating-point destination of the same number leaves both general registers (R137; R21 for register
0, log 18, PRESUMED; the upper half after gslwxc1 is D27, log 23, DEDUCED). -/
def Obligations.DestinationMayBeBaseOrIndex : Prop :=
  ∀ (x : XFields) (s t : State) (a : Nat),
    (x.rs = x.rd → indexedAddr s x = 2#64 * s.readGpr x.rs + x.offset.signExtend 64)
    ∧ (x.rt = x.rs ∨ x.rt = x.rd →
      translatesTo s.params (s.readGpr x.rs + s.readGpr x.rd + x.offset.signExtend 64) .load a = true →
      (exec (.gslbx x) s = .next t → t.readGpr x.rt = if x.rt = 0#5 then 0#64 else (s.memRead a 1).signExtend 64)
        ∧ (exec (.gslhx x) s = .next t → t.readGpr x.rt = if x.rt = 0#5 then 0#64 else (s.memRead a 2).signExtend 64)
        ∧ (exec (.gslwx x) s = .next t → t.readGpr x.rt = if x.rt = 0#5 then 0#64 else (s.memRead a 4).signExtend 64)
        ∧ (exec (.gsldx x) s = .next t → t.readGpr x.rt = if x.rt = 0#5 then 0#64 else s.memRead a 8)
        ∧ (exec (.gslwxc1 x) s = .next t → t.readFpr x.rt = (s.memRead a 4).signExtend 64
          ∧ t.readGpr x.rs = s.readGpr x.rs ∧ t.readGpr x.rd = s.readGpr x.rd)
        ∧ (exec (.gsldxc1 x) s = .next t → t.readFpr x.rt = s.memRead a 8
          ∧ t.readGpr x.rs = s.readGpr x.rs ∧ t.readGpr x.rd = s.readGpr x.rd))

/-- gslq, gslbx, gslhx, gslwx and gsldx change no register but their destinations, and no byte of memory. (10_state.md
section 1, which instructions read and write general registers, 20_memory.md section 4, side effects.) -/
def Obligations.GprLoadsFrame : Prop :=
  ∀ (i : Instr) (s t : State),
    ((∃ q, i = .gslq q) ∨ ∃ x, i = .gslbx x ∨ i = .gslhx x ∨ i = .gslwx x ∨ i = .gsldx x) → exec i s = .next t →
    (∀ r, r ∉ gprsWritten i → t.readGpr r = s.readGpr r) ∧ t.readGpr 0#5 = 0#64
      ∧ (∀ r, t.readFpr r = s.readFpr r) ∧ (∀ b, t.mem.read b = s.mem.read b) ∧ LaunchFixed s t

/-- gslqc1, gslwxc1 and gsldxc1 change no register but their floating-point destinations, and no byte of memory.
(10_state.md section 1, which instructions read and write general registers, 10_state.md section 2, 20_memory.md
section 4, side effects.) -/
def Obligations.FprLoadsFrame : Prop :=
  ∀ (i : Instr) (s t : State),
    ((∃ q, i = .gslqc1 q) ∨ ∃ x, i = .gslwxc1 x ∨ i = .gsldxc1 x) → exec i s = .next t →
    (∀ r, r ∉ fprsWritten i → t.readFpr r = s.readFpr r) ∧ (∀ r, t.readGpr r = s.readGpr r)
      ∧ (∀ b, t.mem.read b = s.mem.read b) ∧ LaunchFixed s t

/-- The eight stores change no register, and no byte of memory outside the bytes they store to. (10_state.md section
1, which instructions read and write general registers, 20_memory.md section 4, side effects, 20_memory.md section 1.)
-/
def Obligations.StoresFrame : Prop :=
  ∀ (i : Instr) (s t : State), accessOf i = .store → exec i s = .next t →
    (∀ r, t.readGpr r = s.readGpr r) ∧ (∀ r, t.readFpr r = s.readFpr r) ∧ LaunchFixed s t
      ∧ ∀ a, translatesTo s.params (addressOf i s) .store a = true →
        ∀ b, b < a ∨ a + bytesMoved i ≤ b → t.mem.read b = s.mem.read b

/-- Every instruction that answers a next state moves pc by 4 and changes neither an enable nor a parameter (decisions
D8, D21). (10_state.md section 3, 10_state.md section 4, 92_eei_decisions.md D8, D21.) -/
def Obligations.EveryInstructionAdvancesPcByFour : Prop :=
  ∀ (i : Instr) (s t : State), exec i s = .next t → t.pc = s.pc + 4#64 ∧ LaunchFixed s t

/-- R195, R62, R27, and R42: the four bytes are those at the physical address `Translate` gives a load at pc. What is fetched
where `Translate` answers an exception, and the name of the refusal, are the model's (logs 9 and 12, DEDUCED). -/
def Obligations.StepRunsTheDecodedInstruction : Prop :=
  ∀ (s : State) (i : Instr) (rest : List Byte) (a : Nat),
    badLaunch s = false → s.pcInText = true → FetchedFrom s.params s.pc a →
    decode s.params.quadLayout s.params.byteOrder (s.mem.readBytes a 4) = .ok (i, rest) →
    (s.pc.toNat + 4 < 2 ^ 64 → step s = exec i s)
      ∧ (2 ^ 64 ≤ s.pc.toNat + 4 → ∀ t, exec i s = .next t → step s = .refused .pcWraps)
      ∧ ((∀ t, exec i s ≠ .next t) → step s = exec i s)

/-- R195, R196, and R80 to R83 for a word that does not decode; the end of a run as an outcome is log 10 (DESIGN
CHOICE), and where the word is fetched from is R42 with log 9 (DEDUCED). -/
def Obligations.RunEndsAfterTheProgramText : Prop :=
  ∀ s : State, badLaunch s = false →
    (s.pc.toNat = s.textEnd → step s = .fault .runEnded)
      ∧ (s.pc.toNat < s.textBase.toNat ∨ s.textEnd < s.pc.toNat → step s = .refused .notInScope)
      ∧ (∀ a, s.pcInText = true → FetchedFrom s.params s.pc a →
        (decode s.params.quadLayout s.params.byteOrder (s.mem.readBytes a 4) = .error .reservedQFmt0 →
          step s = .refused .reservedQFmt0)
        ∧ (decode s.params.quadLayout s.params.byteOrder (s.mem.readBytes a 4) = .error .reservedQRt1Bit5 →
          step s = .refused .reservedQRt1Bit5)
        ∧ (decode s.params.quadLayout s.params.byteOrder (s.mem.readBytes a 4) = .error .reservedXOp0 →
          step s = .refused .reservedXOp0)
        ∧ (decode s.params.quadLayout s.params.byteOrder (s.mem.readBytes a 4) = .error .notInScope →
          step s = .refused .notInScope)
        ∧ decode s.params.quadLayout s.params.byteOrder (s.mem.readBytes a 4) ≠ .error .truncated)

/-- R193; the conditions are the spec's decision D24. HAS_LEXT and the register mode are held as data (log 17). The
text's bytes in the launch memory are those its words are fetched from (R42; log 9, DEDUCED). -/
def Obligations.BadLaunchConditions : Prop :=
  ∀ s : State,
    (launch s = .refused .badLaunch ↔
      s.pc.toNat % 4 ≠ 0 ∨ s.textBase.toNat % 4 ≠ 0
        ∨ (s.pc.toNat < s.textBase.toNat ∨ s.textBase.toNat + 4 * s.textLen ≤ s.pc.toNat)
        ∨ (∃ j k, j < s.textLen ∧ k < 4 ∧ existsAt s.ram (s.textWordAddress j + k) = false)
        ∨ 2 ^ 64 < s.textBase.toNat + 4 * s.textLen
        ∨ s.params.fpuMode ≠ .independent64 ∨ s.params.hasLext = false)
      ∧ (launch s ≠ .refused .badLaunch → launch s = .next s)

/-- The state after reset meets the invariant of a run. (10_state.md sections 1 and 3, 20_memory.md section 1.) -/
def Obligations.ResetMeetsTheInvariant : Prop :=
  State.reset.Inv

/-- Every step keeps the invariant: canonical memory inside the launch memory, register 0 zero, pc aligned.
(10_state.md section 1, general register 0, 10_state.md section 3, 20_memory.md section 5, admission of an access.) -/
def Obligations.EveryStepKeepsTheInvariant : Prop :=
  ∀ s t : State, s.Inv → step s = .next t → t.Inv

/-- R62, R194, R58: the refusals of R62 and the stuck state are the spec's decisions D20 and D14. The text's bytes are also
those its words are fetched from (R42; log 9, DEDUCED), and pc's instruction is such a word. -/
def Obligations.ProgramTextAndMissingMemoryNeverWritten : Prop :=
  ∀ s t : State, step s = .next t →
    t.textBase = s.textBase ∧ t.textLen = s.textLen ∧ t.ram = s.ram ∧ t.params = s.params
      ∧ (∀ b, s.TextByte b ∨ existsAt s.ram b = false → t.mem.read b = s.mem.read b)
      ∧ ∀ a, FetchedFrom s.params s.pc a → t.mem.readBytes a 4 = s.mem.readBytes a 4

/-- A launched run takes one step per word of its program: after k steps pc has moved by 4k and has not passed the
text's end. (70_reset_and_hazards.md section 2, end of a run, 10_state.md section 3.) -/
def Obligations.EveryRunIsFinite : Prop :=
  ∀ (s t : State) (k : Nat), launch s = .next s → Host.Core.run Sys2Proof.core k s = .next t →
    t.pc.toNat = s.pc.toNat + 4 * k ∧ t.pc.toNat ≤ s.textEnd ∧ 4 * k ≤ s.textEnd - s.pc.toNat

/-- Under TOOLCHAIN a quad word's fields are where R73 puts them: the offset is the nine bits 14 to 6, sign-extended to 64
bits and then multiplied by 16, and RT_1 the five bits 4 to 0. The layout is general knowledge in the spec (G4; log 13,
PRESUMED). -/
def Obligations.ToolchainQuadImmediateIsNineBits : Prop :=
  ∀ (s : State) (w : Word) (i : Instr) (q : QFields),
    decodeWord .toolchain w = .ok i → quadOperands i = some q →
    q.rs = w.extractLsb' 21 5 ∧ q.rt0 = w.extractLsb' 16 5 ∧ q.rt1 = w.extractLsb' 0 5 ∧ w.getLsbD 5 = true
      ∧ quadDisp q = (w.extractLsb' 6 9).signExtend 64 * 16#64
      ∧ (quadDisp q).toInt = 16 * (w.extractLsb' 6 9).toInt
      ∧ -4096 ≤ (quadDisp q).toInt ∧ (quadDisp q).toInt ≤ 4080
      ∧ quadAddr s q = quadDisp q + s.readGpr (w.extractLsb' 21 5)
      ∧ addressOf i s = quadAddr s q

/-- Where the first unit over an address answers Address Error (R57), an instruction whose coprocessors are on raises it, and
a load's translation ends in no exception but TLB Refill and TLB Invalid (R136). That this Address Error is raised where
`AddrAllowed` is consulted is the model's reading (log 30, DEDUCED). -/
def Obligations.TranslateAddressErrorIsRaised : Prop :=
  ∀ (i : Instr) (s : State) (u : TransUnit),
    (CoprocessorsOn s (touchesFpr i) → sameDestinations i = false →
      s.params.units.find? (fun u => unitCovers u (addressOf i s) (accessOf i)) = some u → u.answer = .addressError →
      exec i s = .fault (.raised (.addressError (accessOf i) (addressOf i s)) s.pc))
    ∧ (accessOf i = .load → addressTranslation s.params (addressOf i s) .load = .tlbRefill
      ∨ addressTranslation s.params (addressOf i s) .load = .tlbInvalid
      ∨ ∃ a cca, addressTranslation s.params (addressOf i s) .load = .mapped a cca)
end

