-- ==== Sys2Proof/Laws/Memory.lean ====
section
/-! SUPPORT. The laws of memory: every operation keeps the canonical form, a byte reads back as written, and a write leaves
every other byte alone (spec/20_memory.md R40, R55). -/

namespace Sys2Proof.Machine

theorem Memory.read_nil (a : Nat) : Memory.read [] a = Memory.unlisted := rfl

theorem Memory.read_cons (k : Nat) (b : Byte) (m : Memory) (a : Nat) :
    Memory.read ((k, b) :: m) a = if k = a then b else Memory.read m a := rfl

/-- An address that no cell lists reads as unlisted. -/
theorem Memory.read_of_not_mem {m : Memory} {a : Nat} (h : ∀ c ∈ m, c.1 ≠ a) : m.read a = Memory.unlisted := by
  induction m with
  | nil => rfl
  | cons c m ih =>
    obtain ⟨k, b⟩ := c
    rw [Memory.read_cons, if_neg (h (k, b) (by simp)), ih fun c hc => h c (by simp [hc])]

theorem Memory.mem_without {m : Memory} {a : Nat} {c : Host.Cell} : c ∈ m.without a ↔ c ∈ m ∧ c.1 ≠ a := by
  simp [Memory.without]

theorem Memory.read_without (m : Memory) (a b : Nat) :
    (m.without a).read b = if b = a then Memory.unlisted else m.read b := by
  induction m with
  | nil => simp [Memory.without, Memory.read]
  | cons c m ih =>
    obtain ⟨k, v⟩ := c
    have he : Memory.without ((k, v) :: m) a = if k = a then Memory.without m a else (k, v) :: Memory.without m a := by
      by_cases h : k = a <;> simp [Memory.without, h]
    rw [he]
    by_cases h : k = a
    · rw [if_pos h, ih, Memory.read_cons]
      by_cases hb : b = a
      · simp [hb]
      · have : k ≠ b := fun e => hb (e.symm.trans h)
        simp [hb, this]
    · rw [if_neg h, Memory.read_cons, Memory.read_cons, ih]
      by_cases hk : k = b
      · subst hk
        simp [h]
      · simp [hk]

theorem Memory.mem_place {m : Memory} {a : Nat} {b : Byte} {c : Host.Cell} :
    c ∈ m.place a b ↔ c = (a, b) ∨ c ∈ m := by
  induction m with
  | nil => simp [Memory.place]
  | cons d m ih =>
    obtain ⟨k, v⟩ := d
    simp only [Memory.place]
    split
    · simp
    · simp only [List.mem_cons, ih]
      tauto

theorem Memory.read_place {m : Memory} {a : Nat} (b : Byte) (hm : ∀ c ∈ m, c.1 ≠ a) (x : Nat) :
    (m.place a b).read x = if x = a then b else m.read x := by
  induction m with
  | nil =>
    simp only [Memory.place, Memory.read_cons, Memory.read_nil, eq_comm (a := a)]
  | cons d m ih =>
    obtain ⟨k, v⟩ := d
    have hk : k ≠ a := hm (k, v) (by simp)
    simp only [Memory.place]
    split
    · simp only [Memory.read_cons, eq_comm (a := a)]
    · rw [Memory.read_cons, Memory.read_cons, ih fun c hc => hm c (by simp [hc])]
      by_cases hx : k = x
      · subst hx
        simp [hk]
      · simp [hx]

/-- A write reads back at its address and leaves every other byte alone (R55). -/
theorem Memory.read_write (m : Memory) (a : Nat) (b : Byte) (x : Nat) :
    (m.write a b).read x = if x = a then b else m.read x := by
  unfold Memory.write
  split
  · next h => rw [Memory.read_without, h]
  · rw [Memory.read_place b (fun c hc => (Memory.mem_without.1 hc).2), Memory.read_without]
    split <;> simp_all

/-- Outside the bytes written, memory reads as before. -/
theorem Memory.read_writeBytes_of_outside (bs : List Byte) (m : Memory) (a x : Nat)
    (h : x < a ∨ a + bs.length ≤ x) : (m.writeBytes a bs).read x = m.read x := by
  induction bs generalizing m a with
  | nil => rfl
  | cons b bs ih =>
    simp only [List.length_cons] at h
    rw [Memory.writeBytes, ih _ _ (by omega), Memory.read_write, if_neg (by omega)]

/-- Memories that agree on a run of bytes read the same there. -/
theorem Memory.readBytes_congr {m m' : Memory} (a n : Nat) (h : ∀ k, k < n → m.read (a + k) = m'.read (a + k)) :
    m.readBytes a n = m'.readBytes a n := by
  induction n generalizing a with
  | zero => rfl
  | succ n ih =>
    have hs := ih (a + 1) fun k hk => by
      have := h (k + 1) (by omega)
      rwa [show a + (k + 1) = a + 1 + k by omega] at this
    rw [Memory.readBytes, Memory.readBytes, hs, show m.read a = m'.read a from h 0 (by omega)]

/-- Two runs of bytes, one after the other, are one run. -/
theorem Memory.writeBytes_append (bs cs : List Byte) (m : Memory) (a : Nat) :
    m.writeBytes a (bs ++ cs) = (m.writeBytes a bs).writeBytes (a + bs.length) cs := by
  induction bs generalizing m a with
  | nil => rfl
  | cons b bs ih =>
    rw [List.cons_append, Memory.writeBytes, ih, Memory.writeBytes, List.length_cons]
    congr 1
    omega

/-! ### The canonical form -/

theorem Memory.without_wf {m : Memory} (a : Nat) (h : m.wf) : (m.without a).wf :=
  ⟨h.1.filter _, fun c hc => h.2 c (Memory.mem_without.1 hc).1⟩

theorem Memory.place_wf {m : Memory} {a : Nat} {b : Byte} (h : m.wf) (hm : ∀ c ∈ m, c.1 ≠ a)
    (hb : b ≠ Memory.unlisted) : (m.place a b).wf := by
  refine ⟨?_, fun c hc => ?_⟩
  · induction m with
    | nil => simp [Memory.place]
    | cons d m ih =>
      obtain ⟨k, v⟩ := d
      have hs := List.pairwise_cons.1 h.1
      simp only [Memory.place]
      split
      · next hlt =>
        refine List.pairwise_cons.2 ⟨fun c hc => ?_, h.1⟩
        rcases List.mem_cons.1 hc with rfl | hc
        · exact hlt
        · exact Nat.lt_trans hlt (hs.1 c hc)
      · next hlt =>
        refine List.pairwise_cons.2 ⟨fun c hc => ?_, ih ⟨hs.2, fun c hc => h.2 c (by simp [hc])⟩ fun c hc => hm c (by simp [hc])⟩
        rcases Memory.mem_place.1 hc with rfl | hc
        · have : k ≠ a := hm (k, v) (by simp)
          show k < a
          omega
        · exact hs.1 c hc
  · rcases Memory.mem_place.1 hc with rfl | hc
    · exact hb
    · exact h.2 c hc

/-- Writing a byte keeps the canonical form. -/
theorem Memory.write_wf {m : Memory} (a : Nat) (b : Byte) (h : m.wf) : (m.write a b).wf := by
  unfold Memory.write
  split
  · exact Memory.without_wf a h
  · next hb => exact Memory.place_wf (Memory.without_wf a h) (fun c hc => (Memory.mem_without.1 hc).2) hb

/-- Writing bytes keeps the canonical form. -/
theorem Memory.writeBytes_wf (bs : List Byte) {m : Memory} (a : Nat) (h : m.wf) : (m.writeBytes a bs).wf := by
  induction bs generalizing m a with
  | nil => exact h
  | cons b bs ih => exact ih (a + 1) (Memory.write_wf a b h)

/-- Writing a value keeps the canonical form. -/
theorem Memory.writeValue_wf {m : Memory} (o : ByteOrder) (a : Nat) (n : Nat) (v : BitVec (8 * n)) (h : m.wf) :
    (m.writeValue o a n v).wf :=
  Memory.writeBytes_wf _ a h

/-! ### Which addresses are listed -/

theorem Memory.mem_write {m : Memory} {a : Nat} {b : Byte} {c : Host.Cell} (h : c ∈ m.write a b) :
    c.1 = a ∨ c ∈ m := by
  unfold Memory.write at h
  split at h
  · exact .inr (Memory.mem_without.1 h).1
  · rcases Memory.mem_place.1 h with rfl | h
    · exact .inl rfl
    · exact .inr (Memory.mem_without.1 h).1

/-- A cell listed after writing bytes was listed before or lies among the bytes written. -/
theorem Memory.mem_writeBytes (bs : List Byte) {m : Memory} {a : Nat} {c : Host.Cell}
    (h : c ∈ m.writeBytes a bs) : (a ≤ c.1 ∧ c.1 < a + bs.length) ∨ c ∈ m := by
  induction bs generalizing m a with
  | nil => exact .inr h
  | cons b bs ih =>
    simp only [List.length_cons]
    rcases ih h with h | h
    · left; omega
    · rcases Memory.mem_write h with h | h
      · left; omega
      · exact .inr h

/-! ### Lengths -/

@[simp] theorem length_splitBytes {w : Nat} (n : Nat) (v : BitVec w) : (splitBytes n v).length = n := by
  simp [splitBytes]

@[simp] theorem length_arrange (o : ByteOrder) (bs : List Byte) : (o.arrange bs).length = bs.length := by
  cases o <;> simp [ByteOrder.arrange]

@[simp] theorem Memory.length_readBytes (m : Memory) (a : Nat) (n : Nat) : (m.readBytes a n).length = n := by
  induction n generalizing a with
  | zero => rfl
  | succ n ih => simp [Memory.readBytes, ih]

/-! ### Existence -/

/-- Every byte of a run exists exactly when each does (R58). -/
theorem allExist_iff (ram : List Region) (a : Nat) (n : Nat) :
    allExist ram a n = true ↔ ∀ k, k < n → existsAt ram (a + k) = true := by
  simp only [allExist, Bool.or_eq_true, List.all_eq_true, List.mem_range, List.any_eq_true, Bool.and_eq_true,
    decide_eq_true_eq, existsAt, Region.holds]
  constructor
  · rintro (⟨r, hr, h1, h2⟩ | h) k hk
    · exact ⟨r, hr, by omega, by omega⟩
    · exact h k hk
  · exact .inr

end Sys2Proof.Machine
end

