-- ==== Sys2Proof/Laws/Checks.lean ====
section
/-! SUPPORT. What the shared checks can answer, said once (spec/60_exceptions.md R163): the provers cite these and do not
unfold the checks. -/

namespace Sys2Proof.Machine

/-! ### Outcomes -/

@[simp] theorem Stop.outcome_fault (r : Fault) : (Stop.fault r).outcome = .fault r := rfl

@[simp] theorem Stop.outcome_refused (r : Refusal) : (Stop.refused r).outcome = .refused r := rfl

theorem Stop.outcome_ne_next (p : Stop) (t : State) : p.outcome ≠ .next t := by
  cases p <;> simp

/-! ### The enables -/

/-- The coprocessor checks let an instruction pass exactly when what it needs is on. -/
theorem enableStop_eq_none (s : State) (fmt : Format) (fpr : Bool) :
    enableStop s fmt fpr = none ↔ CoprocessorsOn s fpr := by
  unfold enableStop
  split
  · next h => cases fmt <;> simp [h]
  · next h =>
    split
    · next g => simp [g]
    · next g => simp only [true_iff]; exact ⟨h, fun hf => by simpa [hf] using g⟩

theorem sameDestinationStop_eq_none (q : QFields) : sameDestinationStop q = none ↔ q.rt0 ≠ q.rt1 := by
  simp [sameDestinationStop]

/-! ### Alignment -/

/-- The alignment test fails exactly when `Aligned` does not hold (R47). -/
theorem misaligned_eq_false (s : State) (r : Request) :
    misaligned s.params r = false ↔ Aligned s r.format r.access r.size r.vAddr := by
  simp only [misaligned, testsAlignment, Aligned, Bool.and_eq_false_imp, Bool.or_eq_true, Bool.and_eq_true, beq_iff_eq,
    Bool.not_eq_true', bne_eq_false_iff_eq]

/-! ### The platform's functions -/

theorem answersAddressError_iff (p : Params) (v : VAddr) (acc : Access) :
    answersAddressError p v acc = true ↔
      ∃ u, p.units.find? (fun u => unitCovers u v acc) = some u ∧ u.answer = .addressError := by
  unfold answersAddressError
  cases p.units.find? fun u => unitCovers u v acc <;> simp

/-- `AddrAllowed` is false exactly on a listed access or where the first unit over the address answers Address Error. -/
theorem addrAllowed_eq_false (p : Params) (v : VAddr) (n : Nat) (acc : Access) :
    addrAllowed p v n acc = false ↔
      (∃ r ∈ p.denied, patternCovers r v n acc = true)
        ∨ ∃ u, p.units.find? (fun u => unitCovers u v acc) = some u ∧ u.answer = .addressError := by
  rw [addrAllowed, Bool.and_eq_false_iff, Bool.not_eq_false', Bool.not_eq_false', List.any_eq_true, answersAddressError_iff]

/-- A load's translation never ends in TLB Modified (R57, R136). -/
theorem addressTranslation_load_ne_tlbModified (p : Params) (v : VAddr) :
    addressTranslation p v .load ≠ .tlbModified := by
  intro h
  unfold addressTranslation at h
  cases hf : p.units.findSome? fun u => if unitCovers u v .load = true then unitTranslation u v else none with
  | none => rw [hf] at h; cases h
  | some t =>
    rw [hf] at h
    obtain ⟨u, -, hu⟩ := List.exists_of_findSome?_eq_some hf
    split at hu
    · next hc =>
      cases ha : u.answer <;> simp_all [unitCovers, unitTranslation]
    · cases hu

/-! ### The access -/

theorem admitStop_eq_none (s : State) (r : Request) (a : Nat) :
    admitStop s r a = none ↔
      (r.format = .indexed → watchHit s.params r.vAddr r.size r.access = false)
        ∧ (r.format = .indexed → r.access = .store → busFault s.params a r.size = false)
        ∧ crossesUnit s.params r.vAddr r.size r.access = false
        ∧ allExist s.ram a r.size = true
        ∧ (r.access = .store → s.touchesText a r.size = false) := by
  unfold admitStop
  split
  · next h => simp [h]
  · next h1 =>
    split
    · next h => simp [h]
    · next h2 =>
      split
      · next h => simp [h]
      · next h3 =>
        split
        · next h => simp [h]
        · next h4 =>
          split
          · next h => simp [h]
          · next h5 =>
            simp only [true_iff]
            refine ⟨fun h => ?_, fun h g => ?_, by simpa using h3, by simpa using h4, fun h => ?_⟩
            · simpa [h] using h1
            · simpa [h, g] using h2
            · simpa [h] using h5

/-- What a stop after the translation says: an exception's record, or one of the three others with its cause. -/
theorem admitStop_some_cases {s : State} {r : Request} {a : Nat} {p : Stop} (h : admitStop s r a = some p) :
    (∃ e, p = raise e s)
      ∨ p = .refused .accessCrossesTranslationUnit ∧ crossesUnit s.params r.vAddr r.size r.access = true
      ∨ p = .fault (.outsideLaunchMemory r.access a r.size) ∧ allExist s.ram a r.size = false
      ∨ p = .refused .storeToProgramText ∧ r.access = .store ∧ s.touchesText a r.size = true := by
  unfold admitStop at h
  split at h
  · exact .inl ⟨_, (Option.some.inj h).symm⟩
  split at h
  · exact .inl ⟨_, (Option.some.inj h).symm⟩
  split at h
  · next hc => exact .inr (.inl ⟨(Option.some.inj h).symm, hc⟩)
  split at h
  · next hm => exact .inr (.inr (.inl ⟨(Option.some.inj h).symm, hm⟩))
  split at h
  · next ht => exact .inr (.inr (.inr ⟨(Option.some.inj h).symm, ht⟩))
  · cases h

/-- What a stop of the access says: an exception's record, or a stop after a translation that gave an address. -/
theorem resolve_error_cases {s : State} {r : Request} {p : Stop} (h : resolve s r = .error p) :
    (∃ e, p = raise e s) ∨ ∃ a, translatesTo s.params r.vAddr r.access a = true ∧ admitStop s r a = some p := by
  unfold resolve at h
  split at h
  · exact .inl ⟨_, (Except.error.inj h).symm⟩
  split at h
  · exact .inl ⟨_, (Except.error.inj h).symm⟩
  split at h
  iterate 3 exact .inl ⟨_, (Except.error.inj h).symm⟩
  next b cca ht =>
    split at h
    · next q hq => exact .inr ⟨b, by simp [translatesTo, ht], by rw [hq, Except.error.inj h]⟩
    · cases h

/-- The access goes through to `a` exactly when `AccessGranted` holds. -/
theorem resolve_eq_ok (s : State) (r : Request) (a : Nat) :
    resolve s r = .ok a ↔ AccessGranted s r.format r.access r.size r.vAddr a := by
  have ha := misaligned_eq_false s r
  unfold resolve AccessGranted
  split
  · next h => simp [← ha, h]
  · next h1 =>
    rw [← ha]
    split
    · next h => simp [h]
    · next h2 =>
      have h1' : misaligned s.params r = false := by simpa using h1
      have h2' : addrAllowed s.params r.vAddr r.size r.access = true := by simpa using h2
      cases ht : addressTranslation s.params r.vAddr r.access with
      | mapped b cca =>
        simp only [h1', h2', translatesTo, ht, true_and, beq_iff_eq]
        cases hs : admitStop s r b with
        | none =>
          have := (admitStop_eq_none s r b).1 hs
          simp only [Except.ok.injEq]
          constructor
          · rintro rfl; exact ⟨rfl, this⟩
          · exact fun h => h.1
        | some p =>
          simp only [reduceCtorEq, false_iff]
          rintro ⟨rfl, h⟩
          rw [(admitStop_eq_none s r b).2 h] at hs
          simp at hs
      | tlbRefill => simp [translatesTo, ht]
      | tlbInvalid => simp [translatesTo, ht]
      | tlbModified => simp [translatesTo, ht]

/-! ### The shape of every instruction -/

/-- Where nothing stops it, an instruction answers its effect and pc + 4. -/
theorem perform_eq_next {s : State} {early : Option Stop} {r : Request} {a : Nat} (effect : Nat → State)
    (he : early = none) (hr : AccessGranted s r.format r.access r.size r.vAddr a) :
    perform s early r effect = .next (effect a).advance := by
  subst he
  simp [perform, (resolve_eq_ok s r a).2 hr]

/-- What a next state says: nothing stopped the instruction, and the state is its effect and pc + 4. -/
theorem perform_next_cases {s t : State} {early : Option Stop} {r : Request} {effect : Nat → State}
    (h : perform s early r effect = .next t) :
    early = none ∧ ∃ a, AccessGranted s r.format r.access r.size r.vAddr a ∧ t = (effect a).advance := by
  unfold perform at h
  cases he : early with
  | some p => rw [he] at h; exact absurd h (Stop.outcome_ne_next p t)
  | none =>
    rw [he] at h
    refine ⟨rfl, ?_⟩
    cases hr : resolve s r with
    | error p => rw [hr] at h; exact absurd h (Stop.outcome_ne_next p t)
    | ok a =>
      rw [hr] at h
      exact ⟨a, (resolve_eq_ok s r a).1 hr, (Host.Outcome.next.inj h).symm⟩

/-- What an outcome other than a next state says: an early stop, or a stop of the access. -/
theorem perform_stop_cases {s : State} {early : Option Stop} {r : Request} {effect : Nat → State} {o : Outcome}
    (h : perform s early r effect = o) (hn : ∀ t, o ≠ .next t) :
    (∃ p, early = some p ∧ o = p.outcome) ∨ early = none ∧ ∃ p, resolve s r = .error p ∧ o = p.outcome := by
  subst h
  cases early with
  | some p => exact .inl ⟨p, rfl, rfl⟩
  | none =>
    refine .inr ⟨rfl, ?_⟩
    cases hr : resolve s r with
    | error p => exact ⟨p, rfl, by simp [perform, hr]⟩
    | ok a => exact absurd (by simp [perform, hr]) (hn (effect a).advance)

/-! ### The program text and the launch -/

/-- An access of at least one byte touches the text exactly when one of its bytes lies in it (R62, R194). -/
theorem State.touchesText_iff (s : State) (a n : Nat) (hn : 0 < n) :
    s.touchesText a n = true ↔ ∃ k, k < n ∧ s.TextByte (a + k) := by
  have he : s.textEnd = s.textBase.toNat + 4 * s.textLen := rfl
  have meet (b c : Nat) : b < a + n ∧ a < c ∧ b < c ↔ ∃ k, k < n ∧ b ≤ a + k ∧ a + k < c := by
    constructor
    · rintro ⟨h1, h2, h3⟩
      by_cases h : b ≤ a
      · exact ⟨0, hn, by omega, by omega⟩
      · exact ⟨b - a, by omega, by omega, by omega⟩
    · rintro ⟨k, h1, h2, h3⟩
      omega
  simp only [State.touchesText, State.TextByte, Bool.or_eq_true, Bool.and_eq_true, decide_eq_true_eq, List.any_eq_true,
    List.mem_range, and_or_left, exists_or]
  refine or_congr ?_ ?_
  · rw [← meet]
    omega
  · constructor
    · rintro ⟨i, hi, h1, h2⟩
      obtain ⟨k, hk, h⟩ := (meet (s.textWordAddress i) (s.textWordAddress i + 4)).1 ⟨h1, h2, by omega⟩
      exact ⟨k, hk, i, hi, h⟩
    · rintro ⟨k, hk, i, hi, h⟩
      obtain ⟨h1, h2, -⟩ := (meet (s.textWordAddress i) (s.textWordAddress i + 4)).2 ⟨k, hk, h⟩
      exact ⟨i, hi, h1, h2⟩

/-- Where an instruction is fetched from (R42, R195). -/
theorem fetchAddress_eq_iff (p : Params) (v : VAddr) (a : Nat) : fetchAddress p v = a ↔ FetchedFrom p v a := by
  have hm := addressTranslation_load_ne_tlbModified p v
  unfold fetchAddress FetchedFrom translatesTo
  cases answersAddressError p v .load with
  | true => simp [eq_comm (a := a)]
  | false =>
    cases ht : addressTranslation p v .load with
    | mapped b cca => simp
    | tlbRefill => simp [eq_comm (a := a)]
    | tlbInvalid => simp [eq_comm (a := a)]
    | tlbModified => exact absurd ht hm

/-- With no translation unit a fetch reads at the virtual address. -/
theorem fetchAddress_identity {p : Params} (h : p.units = []) (v : VAddr) : fetchAddress p v = v.toNat := by
  simp [fetchAddress, answersAddressError, addressTranslation, h]

theorem State.textExists_iff (s : State) :
    s.textExists = true ↔ ∀ i, i < s.textLen → ∀ k, k < 4 → existsAt s.ram (s.textWordAddress i + k) = true := by
  simp only [State.textExists, List.all_eq_true, List.mem_range, allExist_iff]

theorem State.pcInText_iff (s : State) :
    s.pcInText = true ↔ s.textBase.toNat ≤ s.pc.toNat ∧ s.pc.toNat < s.textEnd := by
  simp only [State.pcInText, Bool.and_eq_true, decide_eq_true_eq]

/-- Every byte that pc's instruction is fetched from is a byte of the text, where pc stands at a word of it. -/
theorem State.fetchAddress_pc_eq {s : State} (h : s.pcInText = true) (hp : s.pc.toNat % 4 = 0)
    (hb : s.textBase.toNat % 4 = 0) : ∃ i, i < s.textLen ∧ fetchAddress s.params s.pc = s.textWordAddress i := by
  obtain ⟨h1, h2⟩ := s.pcInText_iff.1 h
  have he : s.textEnd = s.textBase.toNat + 4 * s.textLen := rfl
  refine ⟨(s.pc.toNat - s.textBase.toNat) / 4, by omega, ?_⟩
  rw [State.textWordAddress]
  congr 1
  apply BitVec.eq_of_toNat_eq
  have := s.pc.isLt
  simp only [BitVec.toNat_add, BitVec.toNat_ofNat]
  omega

/-- The conditions of R193 that hold of every state of a run. -/
theorem badLaunch_eq_false (s : State) :
    badLaunch s = false ↔ s.pc.toNat % 4 = 0 ∧ s.textBase.toNat % 4 = 0
      ∧ (∀ i, i < s.textLen → ∀ k, k < 4 → existsAt s.ram (s.textWordAddress i + k) = true) ∧ s.textEnd ≤ 2 ^ 64
      ∧ s.params.fpuMode = .independent64 ∧ s.params.hasLext = true := by
  rw [← State.textExists_iff]
  simp only [badLaunch, Bool.or_eq_false_iff, bne_eq_false_iff_eq, Bool.not_eq_false', decide_eq_false_iff_not,
    Nat.not_lt, and_assoc]

/-! ### One step -/

/-- What a next state of `step` says: an instruction was fetched, its own outcome is that state, and pc does not wrap. -/
theorem step_next_cases {s t : State} (h : step s = .next t) :
    ∃ i, fetch s = .ok i ∧ exec i s = .next t ∧ s.pc.toNat + 4 < 2 ^ 64 := by
  unfold step at h
  cases hf : fetch s with
  | error p => rw [hf] at h; exact absurd h (Stop.outcome_ne_next p t)
  | ok i =>
    rw [hf] at h
    refine ⟨i, rfl, ?_⟩
    simp only [guardPcWrap] at h
    cases he : exec i s with
    | next u =>
      rw [he] at h
      simp only at h
      split at h
      · next hw => exact ⟨h, hw⟩
      · simp at h
    | fault r => rw [he] at h; simp at h
    | refused r => rw [he] at h; simp at h

/-- What a fetched instruction says of the state (R193, R195). -/
theorem fetch_ok_cases {s : State} {i : Instr} (h : fetch s = .ok i) :
    badLaunch s = false ∧ s.pcInText = true
      ∧ ∃ rest, decode s.params.quadLayout s.params.byteOrder s.fetchBytes = .ok (i, rest) := by
  unfold fetch at h
  split at h
  · simp at h
  · next h1 =>
    split at h
    · simp at h
    · split at h
      · simp at h
      · next h3 =>
        refine ⟨by simpa using h1, by simpa using h3, ?_⟩
        cases hd : decode s.params.quadLayout s.params.byteOrder s.fetchBytes with
        | ok p => rw [hd] at h; exact ⟨p.2, by simp at h; rw [← h]⟩
        | error e => rw [hd] at h; simp at h

end Sys2Proof.Machine
end

