-- ==== Sys2Proof/Laws/Encode.lean ====
section
/-! SUPPORT. Where the encoder puts each field: the slices of a format Q word (spec/30_encoding.md R71, R73) and of a format X
word (R74), each the field it was built from; a word rebuilt from its fields; what a decoded quad word says; and that a word is
never refused as too short. -/

namespace Sys2Proof

/-! ### Format Q, both layouts -/

theorem quadWord_major (l : QuadLayout) (m : BitVec 6) (c : BitVec 1) (q : QFields) :
    (quadWord l m c q).extractLsb' 26 6 = m := by
  cases l <;> ext i hi <;> interval_cases i <;> simp [quadWord, quadMiddle]

theorem quadWord_rs (l : QuadLayout) (m : BitVec 6) (c : BitVec 1) (q : QFields) :
    (quadWord l m c q).extractLsb' 21 5 = q.rs := by
  cases l <;> ext i hi <;> interval_cases i <;> simp [quadWord, quadMiddle]

theorem quadWord_rt0 (l : QuadLayout) (m : BitVec 6) (c : BitVec 1) (q : QFields) :
    (quadWord l m c q).extractLsb' 16 5 = q.rt0 := by
  cases l <;> ext i hi <;> interval_cases i <;> simp [quadWord, quadMiddle]

theorem quadWord_c1 (l : QuadLayout) (m : BitVec 6) (c : BitVec 1) (q : QFields) :
    (quadWord l m c q).extractLsb' 15 1 = c := by
  cases l <;> ext i hi <;> interval_cases i <;> simp [quadWord, quadMiddle]

theorem quadWord_rt1 (l : QuadLayout) (m : BitVec 6) (c : BitVec 1) (q : QFields) :
    (quadWord l m c q).extractLsb' 0 5 = q.rt1 := by
  cases l <;> ext i hi <;> interval_cases i <;> simp [quadWord, quadMiddle]

theorem quadWord_figure_offset (m : BitVec 6) (c : BitVec 1) (q : QFields) :
    (quadWord .sourceFigure m c q).extractLsb' 7 8 = q.offset.setWidth 8 := by
  ext i hi
  interval_cases i <;> simp [quadWord, quadMiddle]

theorem quadWord_toolchain_offset (m : BitVec 6) (c : BitVec 1) (q : QFields) :
    (quadWord .toolchain m c q).extractLsb' 6 9 = q.offset := by
  ext i hi
  interval_cases i <;> simp [quadWord, quadMiddle]

/-- A word the encoder writes is not a reserved one (R80, R81). -/
theorem quadReserved_quadWord (l : QuadLayout) (m : BitVec 6) (c : BitVec 1) (q : QFields) :
    quadReserved l (quadWord l m c q) = none := by
  have bit (w : Word) (j : Nat) (hj : j < 32) : w.extractLsb' j 1 = BitVec.ofBool w[j] := by
    ext i hi
    have : i = 0 := by omega
    subst this
    simp [BitVec.getLsbD_eq_getElem hj]
  cases l <;> simp [quadReserved, bit, quadWord, quadMiddle]

/-! ### Format X -/

theorem indexedWord_major (m : BitVec 6) (o : BitVec 3) (x : XFields) :
    (indexedWord m o x).extractLsb' 26 6 = m := by
  ext i hi
  interval_cases i <;> simp [indexedWord]

theorem indexedWord_op0 (m : BitVec 6) (o : BitVec 3) (x : XFields) :
    (indexedWord m o x).extractLsb' 0 3 = o := by
  ext i hi
  interval_cases i <;> simp [indexedWord]

theorem indexedFields_indexedWord (m : BitVec 6) (o : BitVec 3) (x : XFields) :
    indexedFields (indexedWord m o x) = x := by
  have h1 : (indexedWord m o x).extractLsb' 21 5 = x.rs := by
    ext i hi
    interval_cases i <;> simp [indexedWord]
  have h2 : (indexedWord m o x).extractLsb' 16 5 = x.rt := by
    ext i hi
    interval_cases i <;> simp [indexedWord]
  have h3 : (indexedWord m o x).extractLsb' 11 5 = x.rd := by
    ext i hi
    interval_cases i <;> simp [indexedWord]
  have h4 : (indexedWord m o x).extractLsb' 3 8 = x.offset := by
    ext i hi
    interval_cases i <;> simp [indexedWord]
  simp [indexedFields, h1, h2, h3, h4]

/-! ### A word from its fields -/

/-- Words that agree on a slice agree on its bits. -/
theorem getElem_eq_of_slice {v w : Word} {a n : Nat} (h : v.extractLsb' a n = w.extractLsb' a n) (i : Nat) (hi : i < 32)
    (ha : a ≤ i) (hn : i < a + n) : v[i] = w[i] := by
  have hb := congrArg (fun u => u.getLsbD (i - a)) h
  simpa [BitVec.getLsbD_extractLsb', show i - a < n by omega, show a + (i - a) = i by omega,
    BitVec.getLsbD_eq_getElem hi] using hb

/-- Two words with the same six fields of format X are equal (R74). -/
theorem indexedWord_ext {v w : Word} (h1 : v.extractLsb' 26 6 = w.extractLsb' 26 6)
    (h2 : indexedFields v = indexedFields w) (h3 : v.extractLsb' 0 3 = w.extractLsb' 0 3) : v = w := by
  simp only [indexedFields, XFields.mk.injEq] at h2
  obtain ⟨hs, ht, hd, ho⟩ := h2
  ext i hi
  by_cases a1 : i < 3
  · exact getElem_eq_of_slice h3 i hi (by omega) (by omega)
  by_cases a2 : i < 11
  · exact getElem_eq_of_slice ho i hi (by omega) (by omega)
  by_cases a3 : i < 16
  · exact getElem_eq_of_slice hd i hi (by omega) (by omega)
  by_cases a4 : i < 21
  · exact getElem_eq_of_slice ht i hi (by omega) (by omega)
  by_cases a5 : i < 26
  · exact getElem_eq_of_slice hs i hi (by omega) (by omega)
  · exact getElem_eq_of_slice h1 i hi (by omega) (by omega)

/-- A format X word is rebuilt from its fields (R74). -/
theorem indexedWord_indexedFields (w : Word) :
    indexedWord (w.extractLsb' 26 6) (w.extractLsb' 0 3) (indexedFields w) = w :=
  indexedWord_ext (indexedWord_major _ _ _) (indexedFields_indexedWord _ _ _) (indexedWord_op0 _ _ _)

/-- Widening the 8-bit offset to nine bits and narrowing it again changes nothing (R75). -/
theorem setWidth_signExtend_offset (b : BitVec 8) : (b.signExtend 9).setWidth 8 = b := by
  ext i hi
  rw [BitVec.getElem_setWidth, BitVec.getLsbD_eq_getElem (show i < 9 by omega), BitVec.getElem_signExtend, dif_pos hi]

/-- A format Q word of the figure's layout is rebuilt from its fields (R71). -/
theorem quadWord_figure_quadFields (w : Word) (h6 : w.extractLsb' 6 1 = 1#1) (h5 : w.extractLsb' 5 1 = 0#1) :
    quadWord .sourceFigure (w.extractLsb' 26 6) (w.extractLsb' 15 1) (quadFields .sourceFigure w) = w := by
  have k (m : BitVec 6) (c : BitVec 1) (q : QFields) : (quadWord .sourceFigure m c q).extractLsb' 6 1 = 1#1
      ∧ (quadWord .sourceFigure m c q).extractLsb' 5 1 = 0#1 := by
    constructor <;> (ext i hi; interval_cases i; simp [quadWord, quadMiddle])
  have ho : (quadWord .sourceFigure (w.extractLsb' 26 6) (w.extractLsb' 15 1) (quadFields .sourceFigure w)).extractLsb' 7 8
      = w.extractLsb' 7 8 := by
    simp only [quadWord_figure_offset, quadFields, quadOffset, setWidth_signExtend_offset]
  ext i hi
  by_cases a1 : i < 5
  · exact getElem_eq_of_slice (quadWord_rt1 _ _ _ _) i hi (by omega) (by omega)
  by_cases a2 : i < 6
  · exact getElem_eq_of_slice ((k _ _ _).2.trans h5.symm) i hi (by omega) (by omega)
  by_cases a3 : i < 7
  · exact getElem_eq_of_slice ((k _ _ _).1.trans h6.symm) i hi (by omega) (by omega)
  by_cases a4 : i < 15
  · exact getElem_eq_of_slice ho i hi (by omega) (by omega)
  by_cases a5 : i < 16
  · exact getElem_eq_of_slice (quadWord_c1 _ _ _ _) i hi (by omega) (by omega)
  by_cases a6 : i < 21
  · exact getElem_eq_of_slice (quadWord_rt0 _ _ _ _) i hi (by omega) (by omega)
  by_cases a7 : i < 26
  · exact getElem_eq_of_slice (quadWord_rs _ _ _ _) i hi (by omega) (by omega)
  · exact getElem_eq_of_slice (quadWord_major _ _ _ _) i hi (by omega) (by omega)

/-- A format Q word of the other layout is rebuilt from its fields (R73). -/
theorem quadWord_toolchain_quadFields (w : Word) (h5 : w.extractLsb' 5 1 = 1#1) :
    quadWord .toolchain (w.extractLsb' 26 6) (w.extractLsb' 15 1) (quadFields .toolchain w) = w := by
  have k (m : BitVec 6) (c : BitVec 1) (q : QFields) : (quadWord .toolchain m c q).extractLsb' 5 1 = 1#1 := by
    ext i hi; interval_cases i; simp [quadWord, quadMiddle]
  ext i hi
  by_cases a1 : i < 5
  · exact getElem_eq_of_slice (quadWord_rt1 _ _ _ _) i hi (by omega) (by omega)
  by_cases a2 : i < 6
  · exact getElem_eq_of_slice ((k _ _ _).trans h5.symm) i hi (by omega) (by omega)
  by_cases a4 : i < 15
  · exact getElem_eq_of_slice (quadWord_toolchain_offset _ _ _) i hi (by omega) (by omega)
  by_cases a5 : i < 16
  · exact getElem_eq_of_slice (quadWord_c1 _ _ _ _) i hi (by omega) (by omega)
  by_cases a6 : i < 21
  · exact getElem_eq_of_slice (quadWord_rt0 _ _ _ _) i hi (by omega) (by omega)
  by_cases a7 : i < 26
  · exact getElem_eq_of_slice (quadWord_rs _ _ _ _) i hi (by omega) (by omega)
  · exact getElem_eq_of_slice (quadWord_major _ _ _ _) i hi (by omega) (by omega)

/-! ### A decoded quad word -/

open Sys2Proof.Machine

/-- What a format Q word that decodes says: it is not reserved, and the instruction has its fields (R71, R73). -/
theorem decodeQuad_ok_cases {l : QuadLayout} {b : Bool} {w : Word} {i : Instr} (h : decodeQuad l b w = .ok i) :
    quadReserved l w = none ∧ quadOperands i = some (quadFields l w) := by
  unfold decodeQuad at h
  cases hr : quadReserved l w with
  | some e => rw [hr] at h; cases h
  | none =>
    rw [hr] at h
    refine ⟨rfl, ?_⟩
    simp only at h
    split at h <;> (cases h; rfl)

/-- A format X word decodes to no quad form (R78). -/
theorem decodeIndexed_quadOperands {w : Word} {i : Instr}
    (h : decodeIndexedLoad w = .ok i ∨ decodeIndexedStore w = .ok i) : quadOperands i = none := by
  obtain h | h := h
  · simp only [decodeIndexedLoad] at h
    repeat' split at h
    all_goals (cases h <;> rfl)
  · simp only [decodeIndexedStore] at h
    repeat' split at h
    all_goals (cases h <;> rfl)

/-- What a word that decodes to a quad form says, under either layout: it is not reserved, and the fields are the word's. -/
theorem decodeWord_quad_cases {l : QuadLayout} {w : Word} {i : Instr} {q : QFields} (h : decodeWord l w = .ok i)
    (hq : quadOperands i = some q) : quadReserved l w = none ∧ q = quadFields l w := by
  have key {b : Bool} (hd : decodeQuad l b w = .ok i) : quadReserved l w = none ∧ q = quadFields l w :=
    ⟨(decodeQuad_ok_cases hd).1, Option.some.inj (hq.symm.trans (decodeQuad_ok_cases hd).2)⟩
  simp only [decodeWord] at h
  split at h
  · exact key h
  split at h
  · exact key h
  split at h
  · rw [decodeIndexed_quadOperands (.inl h)] at hq; cases hq
  split at h
  · rw [decodeIndexed_quadOperands (.inr h)] at hq; cases hq
  · cases h

/-! ### Refusals -/

/-- A 32-bit word is never too short: the refusals of the decoding procedure are the four of R79. -/
theorem decodeWord_ne_truncated (l : QuadLayout) (w : Word) : decodeWord l w ≠ .error .truncated := by
  have hq (b : Bool) : decodeQuad l b w ≠ .error .truncated := by
    unfold decodeQuad
    cases hr : quadReserved l w with
    | some e =>
      intro h
      cases h
      cases l <;> simp only [quadReserved] at hr <;> repeat' split at hr
      all_goals cases hr
    | none => simp only; split <;> simp
  simp only [decodeWord, decodeIndexedLoad, decodeIndexedStore]
  split
  · exact hq true
  split
  · exact hq false
  repeat' split
  all_goals simp

end Sys2Proof
end

