-- ==== Sys2Proof/Laws/PerInstr.lean ====
section
/-! SUPPORT. One law per instruction as syntax: the encoder's word agrees with the instruction's row of
spec/opcode_table.json (spec/30_encoding.md R77, R78), its match value under its mask. -/

namespace Sys2Proof.Laws.TableRow

/-- The mask column of an instruction's row. -/
def mask : Instr → Word
  | .gslq _ | .gslqc1 _ | .gssq _ | .gssqc1 _ => 0xFC008060#32
  | _ => 0xFC000007#32

/-- The match column of an instruction's row. -/
def value : Instr → Word
  | .gslq _    => 0xC8000040#32
  | .gslqc1 _  => 0xC8008040#32
  | .gssq _    => 0xE8000040#32
  | .gssqc1 _  => 0xE8008040#32
  | .gslbx _   => 0xD8000000#32
  | .gslhx _   => 0xD8000001#32
  | .gslwx _   => 0xD8000002#32
  | .gsldx _   => 0xD8000003#32
  | .gslwxc1 _ => 0xD8000006#32
  | .gsldxc1 _ => 0xD8000007#32
  | .gssbx _   => 0xF8000000#32
  | .gsshx _   => 0xF8000001#32
  | .gsswx _   => 0xF8000002#32
  | .gssdx _   => 0xF8000003#32
  | .gsswxc1 _ => 0xF8000006#32
  | .gssdxc1 _ => 0xF8000007#32

/-- The word of an instruction has its row's match value under its row's mask. -/
def Statement (i : Instr) : Prop := encode .sourceFigure i &&& mask i = value i

/-- The mask of the quad rows keeps MAJOR_OP, C1, fmt and the fixed zero. -/
theorem quadWord_and_mask (m : BitVec 6) (c : BitVec 1) (q : QFields) :
    quadWord .sourceFigure m c q &&& 0xFC008060#32 = m.setWidth 32 <<< 26 ||| c.setWidth 32 <<< 15 ||| 0x40#32 := by
  ext i hi
  interval_cases i <;> simp [quadWord, quadMiddle]

/-- The mask of the indexed rows keeps MAJOR_OP and OP0. -/
theorem indexedWord_and_mask (m : BitVec 6) (o : BitVec 3) (x : XFields) :
    indexedWord m o x &&& 0xFC000007#32 = m.setWidth 32 <<< 26 ||| o.setWidth 32 := by
  ext i hi
  interval_cases i <;> simp [indexedWord]

theorem gslq (q : QFields) : Statement (.gslq q) :=
  (quadWord_and_mask opQuadLoad 0#1 q).trans rfl

theorem gslqc1 (q : QFields) : Statement (.gslqc1 q) :=
  (quadWord_and_mask opQuadLoad 1#1 q).trans rfl

theorem gssq (q : QFields) : Statement (.gssq q) :=
  (quadWord_and_mask opQuadStore 0#1 q).trans rfl

theorem gssqc1 (q : QFields) : Statement (.gssqc1 q) :=
  (quadWord_and_mask opQuadStore 1#1 q).trans rfl

theorem gslbx (x : XFields) : Statement (.gslbx x) :=
  (indexedWord_and_mask opIndexedLoad 0#3 x).trans rfl

theorem gslhx (x : XFields) : Statement (.gslhx x) :=
  (indexedWord_and_mask opIndexedLoad 1#3 x).trans rfl

theorem gslwx (x : XFields) : Statement (.gslwx x) :=
  (indexedWord_and_mask opIndexedLoad 2#3 x).trans rfl

theorem gsldx (x : XFields) : Statement (.gsldx x) :=
  (indexedWord_and_mask opIndexedLoad 3#3 x).trans rfl

theorem gslwxc1 (x : XFields) : Statement (.gslwxc1 x) :=
  (indexedWord_and_mask opIndexedLoad 6#3 x).trans rfl

theorem gsldxc1 (x : XFields) : Statement (.gsldxc1 x) :=
  (indexedWord_and_mask opIndexedLoad 7#3 x).trans rfl

theorem gssbx (x : XFields) : Statement (.gssbx x) :=
  (indexedWord_and_mask opIndexedStore 0#3 x).trans rfl

theorem gsshx (x : XFields) : Statement (.gsshx x) :=
  (indexedWord_and_mask opIndexedStore 1#3 x).trans rfl

theorem gsswx (x : XFields) : Statement (.gsswx x) :=
  (indexedWord_and_mask opIndexedStore 2#3 x).trans rfl

theorem gssdx (x : XFields) : Statement (.gssdx x) :=
  (indexedWord_and_mask opIndexedStore 3#3 x).trans rfl

theorem gsswxc1 (x : XFields) : Statement (.gsswxc1 x) :=
  (indexedWord_and_mask opIndexedStore 6#3 x).trans rfl

theorem gssdxc1 (x : XFields) : Statement (.gssdxc1 x) :=
  (indexedWord_and_mask opIndexedStore 7#3 x).trans rfl

end Sys2Proof.Laws.TableRow
end

