-- ==== Sys2Proof/Laws/State.lean ====
section
/-! SUPPORT. The small lemmas of the state's updates: one per field per update, and what each register operation reads
afterwards (spec/10_state.md R21, R24). -/

namespace Sys2Proof.Machine

/-! ### writeGpr -/

@[simp] theorem State.writeGpr_x (s : State) (r : RegNum) (v : Dword) :
    (s.writeGpr r v).x = if r = 0#5 then s.x else s.x.set r.toNat v r.isLt := rfl
@[simp] theorem State.writeGpr_f (s : State) (r : RegNum) (v : Dword) :
    (s.writeGpr r v).f = s.f := rfl
@[simp] theorem State.writeGpr_pc (s : State) (r : RegNum) (v : Dword) :
    (s.writeGpr r v).pc = s.pc := rfl
@[simp] theorem State.writeGpr_cu1 (s : State) (r : RegNum) (v : Dword) :
    (s.writeGpr r v).cu1 = s.cu1 := rfl
@[simp] theorem State.writeGpr_cu2 (s : State) (r : RegNum) (v : Dword) :
    (s.writeGpr r v).cu2 = s.cu2 := rfl
@[simp] theorem State.writeGpr_mem (s : State) (r : RegNum) (v : Dword) :
    (s.writeGpr r v).mem = s.mem := rfl
@[simp] theorem State.writeGpr_ram (s : State) (r : RegNum) (v : Dword) :
    (s.writeGpr r v).ram = s.ram := rfl
@[simp] theorem State.writeGpr_textBase (s : State) (r : RegNum) (v : Dword) :
    (s.writeGpr r v).textBase = s.textBase := rfl
@[simp] theorem State.writeGpr_textLen (s : State) (r : RegNum) (v : Dword) :
    (s.writeGpr r v).textLen = s.textLen := rfl
@[simp] theorem State.writeGpr_params (s : State) (r : RegNum) (v : Dword) :
    (s.writeGpr r v).params = s.params := rfl

/-! ### writeFpr -/

@[simp] theorem State.writeFpr_x (s : State) (r : RegNum) (v : Dword) :
    (s.writeFpr r v).x = s.x := rfl
@[simp] theorem State.writeFpr_f (s : State) (r : RegNum) (v : Dword) :
    (s.writeFpr r v).f = s.f.set r.toNat v r.isLt := rfl
@[simp] theorem State.writeFpr_pc (s : State) (r : RegNum) (v : Dword) :
    (s.writeFpr r v).pc = s.pc := rfl
@[simp] theorem State.writeFpr_cu1 (s : State) (r : RegNum) (v : Dword) :
    (s.writeFpr r v).cu1 = s.cu1 := rfl
@[simp] theorem State.writeFpr_cu2 (s : State) (r : RegNum) (v : Dword) :
    (s.writeFpr r v).cu2 = s.cu2 := rfl
@[simp] theorem State.writeFpr_mem (s : State) (r : RegNum) (v : Dword) :
    (s.writeFpr r v).mem = s.mem := rfl
@[simp] theorem State.writeFpr_ram (s : State) (r : RegNum) (v : Dword) :
    (s.writeFpr r v).ram = s.ram := rfl
@[simp] theorem State.writeFpr_textBase (s : State) (r : RegNum) (v : Dword) :
    (s.writeFpr r v).textBase = s.textBase := rfl
@[simp] theorem State.writeFpr_textLen (s : State) (r : RegNum) (v : Dword) :
    (s.writeFpr r v).textLen = s.textLen := rfl
@[simp] theorem State.writeFpr_params (s : State) (r : RegNum) (v : Dword) :
    (s.writeFpr r v).params = s.params := rfl

/-! ### advance -/

@[simp] theorem State.advance_x (s : State) :
    s.advance.x = s.x := rfl
@[simp] theorem State.advance_f (s : State) :
    s.advance.f = s.f := rfl
@[simp] theorem State.advance_pc (s : State) :
    s.advance.pc = s.pc + 4#64 := rfl
@[simp] theorem State.advance_cu1 (s : State) :
    s.advance.cu1 = s.cu1 := rfl
@[simp] theorem State.advance_cu2 (s : State) :
    s.advance.cu2 = s.cu2 := rfl
@[simp] theorem State.advance_mem (s : State) :
    s.advance.mem = s.mem := rfl
@[simp] theorem State.advance_ram (s : State) :
    s.advance.ram = s.ram := rfl
@[simp] theorem State.advance_textBase (s : State) :
    s.advance.textBase = s.textBase := rfl
@[simp] theorem State.advance_textLen (s : State) :
    s.advance.textLen = s.textLen := rfl
@[simp] theorem State.advance_params (s : State) :
    s.advance.params = s.params := rfl

/-! ### memWrite -/

@[simp] theorem State.memWrite_x (s : State) (a : Nat) (n : Nat) (v : BitVec (8 * n)) :
    (s.memWrite a n v).x = s.x := rfl
@[simp] theorem State.memWrite_f (s : State) (a : Nat) (n : Nat) (v : BitVec (8 * n)) :
    (s.memWrite a n v).f = s.f := rfl
@[simp] theorem State.memWrite_pc (s : State) (a : Nat) (n : Nat) (v : BitVec (8 * n)) :
    (s.memWrite a n v).pc = s.pc := rfl
@[simp] theorem State.memWrite_cu1 (s : State) (a : Nat) (n : Nat) (v : BitVec (8 * n)) :
    (s.memWrite a n v).cu1 = s.cu1 := rfl
@[simp] theorem State.memWrite_cu2 (s : State) (a : Nat) (n : Nat) (v : BitVec (8 * n)) :
    (s.memWrite a n v).cu2 = s.cu2 := rfl
@[simp] theorem State.memWrite_mem (s : State) (a : Nat) (n : Nat) (v : BitVec (8 * n)) :
    (s.memWrite a n v).mem = s.mem.writeValue s.params.byteOrder a n v := rfl
@[simp] theorem State.memWrite_ram (s : State) (a : Nat) (n : Nat) (v : BitVec (8 * n)) :
    (s.memWrite a n v).ram = s.ram := rfl
@[simp] theorem State.memWrite_textBase (s : State) (a : Nat) (n : Nat) (v : BitVec (8 * n)) :
    (s.memWrite a n v).textBase = s.textBase := rfl
@[simp] theorem State.memWrite_textLen (s : State) (a : Nat) (n : Nat) (v : BitVec (8 * n)) :
    (s.memWrite a n v).textLen = s.textLen := rfl
@[simp] theorem State.memWrite_params (s : State) (a : Nat) (n : Nat) (v : BitVec (8 * n)) :
    (s.memWrite a n v).params = s.params := rfl

/-! ### Reading registers and memory after an update -/

@[simp] theorem State.readGpr_zero (s : State) : s.readGpr 0#5 = 0#64 := rfl

@[simp] theorem State.readGpr_advance (s : State) (r : RegNum) : s.advance.readGpr r = s.readGpr r := rfl

@[simp] theorem State.readGpr_writeFpr (s : State) (r q : RegNum) (v : Dword) :
    (s.writeFpr q v).readGpr r = s.readGpr r := rfl

@[simp] theorem State.readGpr_memWrite (s : State) (r : RegNum) (a : Nat) (n : Nat) (v : BitVec (8 * n)) :
    (s.memWrite a n v).readGpr r = s.readGpr r := rfl

@[simp] theorem State.readFpr_advance (s : State) (r : RegNum) : s.advance.readFpr r = s.readFpr r := rfl

@[simp] theorem State.readFpr_writeGpr (s : State) (r q : RegNum) (v : Dword) :
    (s.writeGpr q v).readFpr r = s.readFpr r := rfl

@[simp] theorem State.readFpr_memWrite (s : State) (r : RegNum) (a : Nat) (n : Nat) (v : BitVec (8 * n)) :
    (s.memWrite a n v).readFpr r = s.readFpr r := rfl

/-- What a general register reads after a write: the value in the register written, unless it is register 0. -/
theorem State.readGpr_writeGpr (s : State) (r q : RegNum) (v : Dword) :
    (s.writeGpr q v).readGpr r = if r = q ∧ r ≠ 0#5 then v else s.readGpr r := by
  by_cases hr : r = 0#5
  · simp [State.readGpr, hr]
  · by_cases hq : q = 0#5
    · simp [State.readGpr, State.writeGpr, hr, hq]
    · by_cases h : r = q
      · subst h
        simp [State.readGpr, State.writeGpr, hr]
      · have hn : q.toNat ≠ r.toNat := fun e => h (BitVec.eq_of_toNat_eq e.symm)
        simp [State.readGpr, State.writeGpr, hr, hq, h, hn]

/-- What a floating-point register reads after a write: the value in the register written, `f[0]` included. -/
theorem State.readFpr_writeFpr (s : State) (r q : RegNum) (v : Dword) :
    (s.writeFpr q v).readFpr r = if r = q then v else s.readFpr r := by
  by_cases h : r = q
  · subst h
    simp [State.readFpr, State.writeFpr]
  · have hn : q.toNat ≠ r.toNat := fun e => h (BitVec.eq_of_toNat_eq e.symm)
    simp [State.readFpr, State.writeFpr, h, hn]

/-- A write never touches the slot of general register 0. -/
theorem State.writeGpr_slot_zero (s : State) (r : RegNum) (v : Dword) : (s.writeGpr r v).x[0] = s.x[0] := by
  by_cases h : r = 0#5
  · simp [h]
  · have : r.toNat ≠ 0 := fun e => h (BitVec.eq_of_toNat_eq (by simpa using e))
    simp [h, this]

end Sys2Proof.Machine
end

