-- ==== Sys2Proof/Laws/Shape.lean ====
section
/-! SUPPORT. One shape for all sixteen instructions: the early stops, the request and the effect of an instruction, read from
the spec's tables in Safety, and `exec` as `perform` of them. Proofs about every instruction go through it. -/

namespace Sys2Proof.Machine

/-- The request an instruction makes, from the tables of R43 and R41. -/
def requestOf (i : Instr) (s : State) : Request := ⟨formatOf i, accessOf i, bytesMoved i, addressOf i s⟩

/-- The stops known before the address: R163 steps 1 and 2, then R108. -/
def earlyStop (i : Instr) (s : State) : Option Stop :=
  (enableStop s (formatOf i) (touchesFpr i)).or
    (if sameDestinations i = true then some (.refused .quadLoadSameDestination) else none)

/-- What an instruction does at its physical address, before pc + 4. -/
def effectOf (i : Instr) (s : State) (a : Nat) : State :=
  match i with
  | .gslq q    => (s.writeGpr q.rt0 (s.memRead a 8)).writeGpr q.rt1 (s.memRead (a + 8) 8)
  | .gslqc1 q  => (s.writeFpr q.rt0 (s.memRead a 8)).writeFpr q.rt1 (s.memRead (a + 8) 8)
  | .gssq q    => (s.memWrite a 8 (s.readGpr q.rt0)).memWrite (a + 8) 8 (s.readGpr q.rt1)
  | .gssqc1 q  => (s.memWrite a 8 (s.readFpr q.rt0)).memWrite (a + 8) 8 (s.readFpr q.rt1)
  | .gslbx x   => s.writeGpr x.rt ((s.memRead a 1).signExtend 64)
  | .gslhx x   => s.writeGpr x.rt ((s.memRead a 2).signExtend 64)
  | .gslwx x   => s.writeGpr x.rt ((s.memRead a 4).signExtend 64)
  | .gsldx x   => s.writeGpr x.rt (s.memRead a 8)
  | .gslwxc1 x => s.writeFpr x.rt ((s.memRead a 4).signExtend 64)
  | .gsldxc1 x => s.writeFpr x.rt (s.memRead a 8)
  | .gssbx x   => s.memWrite a 1 ((s.readGpr x.rt).extractLsb' 0 8)
  | .gsshx x   => s.memWrite a 2 ((s.readGpr x.rt).extractLsb' 0 16)
  | .gsswx x   => s.memWrite a 4 ((s.readGpr x.rt).extractLsb' 0 32)
  | .gssdx x   => s.memWrite a 8 (s.readGpr x.rt)
  | .gsswxc1 x => s.memWrite a 4 ((s.readFpr x.rt).extractLsb' 0 32)
  | .gssdxc1 x => s.memWrite a 8 (s.readFpr x.rt)

/-- Every instruction is `perform` of its early stops, its request and its effect. -/
theorem exec_eq_perform (i : Instr) (s : State) :
    exec i s = perform s (earlyStop i s) (requestOf i s) (effectOf i s) := by
  cases i <;>
    simp only [exec, execGslq, execGslqc1, execGssq, execGssqc1, execGslbx, execGslhx, execGslwx, execGsldx, execGslwxc1,
      execGsldxc1, execGssbx, execGsshx, execGsswx, execGssdx, execGsswxc1, execGssdxc1, earlyStop, sameDestinations,
      sameDestinationStop, formatOf, touchesFpr, beq_iff_eq, Bool.false_eq_true, if_false, Option.or_none] <;> rfl

/-- The early stops let an instruction pass exactly when its coprocessors are on and it is no quad load with equal
destinations. -/
theorem earlyStop_eq_none (i : Instr) (s : State) :
    earlyStop i s = none ↔ CoprocessorsOn s (touchesFpr i) ∧ sameDestinations i = false := by
  rw [earlyStop, Option.or_eq_none_iff, enableStop_eq_none]
  cases sameDestinations i <;> simp

/-- What a next state of an instruction says: it was allowed, its access was granted at some address, and the state is its
effect there and pc + 4. -/
theorem exec_next_cases {i : Instr} {s t : State} (h : exec i s = .next t) :
    CoprocessorsOn s (touchesFpr i) ∧ sameDestinations i = false
      ∧ ∃ a, AccessGranted s (formatOf i) (accessOf i) (bytesMoved i) (addressOf i s) a ∧ t = (effectOf i s a).advance := by
  rw [exec_eq_perform] at h
  obtain ⟨he, a, hg, ht⟩ := perform_next_cases h
  obtain ⟨h1, h2⟩ := (earlyStop_eq_none i s).1 he
  exact ⟨h1, h2, a, hg, ht⟩

/-- An instruction that is allowed and whose access is granted completes. -/
theorem exec_eq_next {i : Instr} {s : State} {a : Nat} (hc : CoprocessorsOn s (touchesFpr i))
    (hd : sameDestinations i = false)
    (hg : AccessGranted s (formatOf i) (accessOf i) (bytesMoved i) (addressOf i s) a) :
    exec i s = .next (effectOf i s a).advance := by
  rw [exec_eq_perform]
  exact perform_eq_next (effectOf i s) ((earlyStop_eq_none i s).2 ⟨hc, hd⟩) hg

/-- An early stop is an exception's record or one of the two refusals known before the address. -/
theorem earlyStop_some_cases {i : Instr} {s : State} {p : Stop} (h : earlyStop i s = some p) :
    (∃ e, p = raise e s) ∨ p = .refused .indexedOnGs464Cu2Off ∨ p = .refused .quadLoadSameDestination := by
  unfold earlyStop enableStop at h
  split at h
  · cases hf : formatOf i with
    | quad => rw [hf] at h; exact .inl ⟨_, (Option.some.inj h).symm⟩
    | indexed => rw [hf] at h; exact .inr (.inl (Option.some.inj h).symm)
  split at h
  · exact .inl ⟨_, (Option.some.inj h).symm⟩
  · simp only [Option.none_or] at h
    split at h
    · exact .inr (.inr (Option.some.inj h).symm)
    · cases h

/-- Every outcome of an instruction that is no next state: an exception's record, a refusal known before the address, or at
its physical address one of the three stops of R58, R59 and R62 with its cause. -/
theorem exec_stop_cases {i : Instr} {s : State} {o : Outcome} (h : exec i s = o) (hn : ∀ t, o ≠ .next t) :
    (∃ e, o = .fault (.raised e s.pc)) ∨ o = .refused .indexedOnGs464Cu2Off ∨ o = .refused .quadLoadSameDestination
      ∨ ∃ a, translatesTo s.params (addressOf i s) (accessOf i) a = true
        ∧ (o = .refused .accessCrossesTranslationUnit
              ∧ crossesUnit s.params (addressOf i s) (bytesMoved i) (accessOf i) = true
            ∨ o = .fault (.outsideLaunchMemory (accessOf i) a (bytesMoved i)) ∧ allExist s.ram a (bytesMoved i) = false
            ∨ o = .refused .storeToProgramText ∧ accessOf i = .store ∧ s.touchesText a (bytesMoved i) = true) := by
  rw [exec_eq_perform] at h
  obtain ⟨p, hp, rfl⟩ | ⟨-, p, hp, rfl⟩ := perform_stop_cases h hn
  · obtain ⟨e, rfl⟩ | rfl | rfl := earlyStop_some_cases hp
    · exact .inl ⟨e, rfl⟩
    · exact .inr (.inl rfl)
    · exact .inr (.inr (.inl rfl))
  · obtain ⟨e, rfl⟩ | ⟨a, ha, hs⟩ := resolve_error_cases hp
    · exact .inl ⟨e, rfl⟩
    · obtain ⟨e, rfl⟩ | ⟨rfl, hc⟩ | ⟨rfl, hm⟩ | ⟨rfl, ht⟩ := admitStop_some_cases hs
      · exact .inl ⟨e, rfl⟩
      · exact .inr (.inr (.inr ⟨a, ha, .inl ⟨rfl, hc⟩⟩))
      · exact .inr (.inr (.inr ⟨a, ha, .inr (.inl ⟨rfl, hm⟩)⟩))
      · exact .inr (.inr (.inr ⟨a, ha, .inr (.inr ⟨rfl, ht⟩)⟩))

/-- The physical address of a granted access is the one `Translate` gives. -/
theorem translatesTo_unique {p : Params} {v : VAddr} {acc : Access} {a b : Nat} (ha : translatesTo p v acc a = true)
    (hb : translatesTo p v acc b = true) : a = b := by
  unfold translatesTo at ha hb
  split at ha
  · simp_all
  · simp at ha

/-- What an effect leaves of everything but registers and memory. -/
theorem effectOf_fixed (i : Instr) (s : State) (a : Nat) : LaunchFixed s (effectOf i s a) := by
  cases i <;> exact ⟨rfl, rfl, rfl, rfl, rfl, rfl⟩

theorem effectOf_pc (i : Instr) (s : State) (a : Nat) : (effectOf i s a).pc = s.pc := by
  cases i <;> rfl

/-- The two doubleword writes of a quad store are one run of 16 bytes. -/
theorem State.memWrite_memWrite_mem (s : State) (a : Nat) (u v : BitVec (8 * 8)) :
    ((s.memWrite a 8 u).memWrite (a + 8) 8 v).mem
      = s.mem.writeBytes a (s.params.byteOrder.arrange (splitBytes 8 u) ++ s.params.byteOrder.arrange (splitBytes 8 v)) := by
  rw [Memory.writeBytes_append, length_arrange, length_splitBytes]
  rfl

/-- A load's effect leaves memory; a store's writes `bytesMoved` bytes at its address. -/
theorem effectOf_mem (i : Instr) (s : State) (a : Nat) :
    (accessOf i = .load ∧ (effectOf i s a).mem = s.mem)
      ∨ accessOf i = .store ∧ ∃ bs : List Byte, bs.length = bytesMoved i ∧ (effectOf i s a).mem = s.mem.writeBytes a bs := by
  cases i <;> first
    | exact .inl ⟨rfl, rfl⟩
    | exact .inr ⟨rfl, _, by simp [bytesMoved], rfl⟩
    | exact .inr ⟨rfl, _, by simp [bytesMoved], State.memWrite_memWrite_mem s a _ _⟩

end Sys2Proof.Machine
end

