-- ==== Sys2Proof/Tests/Slice0.lean ====
section
/-! SUPPORT. Tests of one step or one decoding each. Expected results are the spec's: the vectors of spec/95_test_vectors.md
(E, D, Q, X, S, V, T) and the worked examples of files 40 and 41, named at each test. -/

namespace Sys2Proof.Tests

open Sys2Proof.Machine

/-! ### Helpers: a small state, and what an outcome shows -/

/-- Set general registers. -/
def withGprs (s : State) (l : List (RegNum × Dword)) : State := l.foldl (fun t p => t.writeGpr p.1 p.2) s

/-- Bytes placed in memory at an address. -/
def withBytes (s : State) (a : Nat) (bs : List Byte) : State := { s with mem := s.mem.writeBytes a bs }

/-- Outcome's general register. -/
def gpr (o : Outcome) (r : RegNum) : Option Dword :=
  match o with
  | .next t => some (t.readGpr r)
  | _ => none

/-- Outcome's floating-point register. -/
def fpr (o : Outcome) (r : RegNum) : Option Dword :=
  match o with
  | .next t => some (t.readFpr r)
  | _ => none

/-- Outcome's memory bytes. -/
def bytes (o : Outcome) (a n : Nat) : Option (List Byte) :=
  match o with
  | .next t => some (t.mem.readBytes a n)
  | _ => none

/-- Outcome's fault. -/
def faultOf (o : Outcome) : Option Fault :=
  match o with
  | .fault r => some r
  | _ => none

/-- Outcome's refusal. -/
def refusalIn (o : Outcome) : Option Refusal :=
  match o with
  | .refused r => some r
  | _ => none

/-- The outcome is a next state. -/
def isNext (o : Outcome) : Bool :=
  match o with
  | .next _ => true
  | _ => false

/-- One step of a word placed at pc. -/
def run (s : State) (w : Nat) : Outcome := step (s.withFetchWord 32 w)

/-- A parameter changed. -/
def withParams (s : State) (f : Params → Params) : State := { s with params := f s.params }

/-- One unit of `Translate` over every address. -/
def allUnit (s : State) (acc : Option Access) (answer : XlatAnswer) : State :=
  withParams s fun p => { p with units := [⟨0, 2 ^ 64 - 1, acc, answer⟩] }

/-- `CORE = GS464` with `cu2 = 0`. -/
def oldCore (s : State) : State := { withParams s (fun p => { p with core := .gs464 }) with cu2 := false }

/-- The bytes of Q1 (95 section 2.3): x[4] = 0x1000, 00 to 0F at 0x1010. -/
def q1 : State :=
  withBytes (withGprs .reset [(4, 0x1000)]) 0x1010 [0, 1, 2, 3, 4, 5, 6, 7, 8, 9, 10, 11, 12, 13, 14, 15]

/-- The start of Q13: x[29] = 0x7FFF0000 and sixteen bytes at 0x7FFEFFF0. -/
def q13 : State :=
  withBytes (withGprs .reset [(29, 0x7FFF0000)]) 0x7FFEFFF0
    [0x18, 0x2D, 0x44, 0x54, 0xFB, 0x21, 0x09, 0x40, 0, 0, 0, 0, 0, 0, 0xF0, 0xBF]

/-- The start of Q17: x[4] = 0x2000 and two data registers. -/
def q17 : State := withGprs .reset [(4, 0x2000), (8, 0x1122334455667788), (9, 0x99AABBCCDDEEFF00)]

/-- The start of Q22. -/
def q22 : State :=
  ((withGprs .reset [(29, 0x7FFF0000)]).writeFpr 0 0x3FF0000000000000).writeFpr 2 0xC000000000000000

/-- Block B (95 section 2.4). -/
def blockB : State :=
  withBytes (withGprs .reset [(4, 0x3000), (5, 0x10)]) 0x3010
    [0xFE, 0xFF, 0x34, 0x12, 0x01, 0, 0, 0x80, 0x11, 0x22, 0x33, 0x44, 0x55, 0x66, 0x77, 0x88]

/-- Block S (95 section 2.5). -/
def blockS : State :=
  withBytes ((withGprs .reset [(4, 0x4000), (5, 0x20), (2, 0x1122334455667788)]).writeFpr 2 0xC00000003F800000)
    0x401F (List.replicate 17 0xEE)

/-! ### Decoding and encoding: words of 95 section 2.1, 2.2 and 2.7 -/

theorem test_e1_gslq : decodeWord .sourceFigure 0xC88200C3 = .ok (.gslq ⟨4, 2, 3, 1⟩) := by decide
theorem test_e2_offset_low : decodeWord .sourceFigure 0xC8824043 = .ok (.gslq ⟨4, 2, 3, -128⟩) := by decide
theorem test_e4_gslqc1 : decodeWord .sourceFigure 0xCBA0FFC2 = .ok (.gslqc1 ⟨29, 0, 2, -1⟩) := by decide
theorem test_e5_gssq : decodeWord .sourceFigure 0xE8880049 = .ok (.gssq ⟨4, 8, 9, 0⟩) := by decide
theorem test_e6_gssqc1 : decodeWord .sourceFigure 0xEBA0C042 = .ok (.gssqc1 ⟨29, 0, 2, -128⟩) := by decide
theorem test_e8_gslbx : decodeWord .sourceFigure 0xD8822FF8 = .ok (.gslbx ⟨4, 2, 5, 0xFF⟩) := by decide
theorem test_e9_gslhx : decodeWord .sourceFigure 0xD8822811 = .ok (.gslhx ⟨4, 2, 5, 2⟩) := by decide
theorem test_e10_gslwx : decodeWord .sourceFigure 0xD8822822 = .ok (.gslwx ⟨4, 2, 5, 4⟩) := by decide
theorem test_e11_gsldx : decodeWord .sourceFigure 0xD8822843 = .ok (.gsldx ⟨4, 2, 5, 8⟩) := by decide
theorem test_e12_gslwxc1 : decodeWord .sourceFigure 0xD8822826 = .ok (.gslwxc1 ⟨4, 2, 5, 4⟩) := by decide
theorem test_e13_gsldxc1 : decodeWord .sourceFigure 0xD8802847 = .ok (.gsldxc1 ⟨4, 0, 5, 8⟩) := by decide
theorem test_e14_gssbx : decodeWord .sourceFigure 0xF8822800 = .ok (.gssbx ⟨4, 2, 5, 0⟩) := by decide
theorem test_e15_gsshx : decodeWord .sourceFigure 0xF8822811 = .ok (.gsshx ⟨4, 2, 5, 2⟩) := by decide
theorem test_e16_gsswx : decodeWord .sourceFigure 0xF8822822 = .ok (.gsswx ⟨4, 2, 5, 4⟩) := by decide
theorem test_e17_gssdx : decodeWord .sourceFigure 0xF8822843 = .ok (.gssdx ⟨4, 2, 5, 8⟩) := by decide
theorem test_e18_gsswxc1 : decodeWord .sourceFigure 0xF8822806 = .ok (.gsswxc1 ⟨4, 2, 5, 0⟩) := by decide
theorem test_e19_gssdxc1 : decodeWord .sourceFigure 0xF8822847 = .ok (.gssdxc1 ⟨4, 2, 5, 8⟩) := by decide

/-- E7 and E21, the encoder on the same data. -/
theorem test_e7_encode : encode .sourceFigure (.gslq ⟨31, 31, 31, -1⟩) = 0xCBFF7FDF := by decide
theorem test_e21_encode : encode .sourceFigure (.gslbx ⟨4, 2, 5, 0x7F⟩) = 0xD8822BF8 := by decide

/-- E1's bytes at rising addresses, and the same word under `BIG` (R45). -/
theorem test_e1_bytes : wordBytes .little 0xC88200C3 = [0xC3, 0x00, 0x82, 0xC8] := by decide
theorem test_e1_bytes_big :
    decode .sourceFigure .big [0xC8, 0x82, 0x00, 0xC3, 0x55] = .ok (.gslq ⟨4, 2, 3, 1⟩, [0x55]) := by decide

theorem test_d2_fmt0 : decodeWord .sourceFigure 0xC8000000 = .error .reservedQFmt0 := by decide
theorem test_d7_bit5 : decodeWord .sourceFigure 0xE8008061 = .error .reservedQRt1Bit5 := by decide
theorem test_d10_op0 : decodeWord .sourceFigure 0xD8822FFC = .error .reservedXOp0 := by decide
theorem test_d11_scope : decodeWord .sourceFigure 0x8C820000 = .error .notInScope := by decide
theorem test_truncated : decode .sourceFigure .little [0xC3, 0x00, 0x82] = .error .truncated := by decide

/-- T1, T4 and D8: the other layout of the quad format (R73). -/
theorem test_t1_toolchain : decodeWord .toolchain 0xC8820063 = .ok (.gslq ⟨4, 2, 3, 1⟩) := by decide
theorem test_t4_toolchain : encode .toolchain (.gssqc1 ⟨29, 0, 2, 0x100⟩) = 0xEBA0C022 := by decide
theorem test_d8_refused : decodeWord .sourceFigure 0xC8820063 = .error .reservedQRt1Bit5 := by decide

/-- T4's offset, -256, is outside -128 to 127 and has no word under `SOURCE_FIGURE`, in each of the four quad forms. -/
theorem test_ill_formed_gslq : Instr.wellFormed .sourceFigure (.gslq ⟨29, 0, 2, 0x100⟩) = false := by decide
theorem test_ill_formed_gslqc1 : Instr.wellFormed .sourceFigure (.gslqc1 ⟨29, 0, 2, 0x080⟩) = false := by decide
theorem test_ill_formed_gssq : Instr.wellFormed .sourceFigure (.gssq ⟨29, 0, 2, 0x17F⟩) = false := by decide
theorem test_ill_formed_gssqc1 : Instr.wellFormed .sourceFigure (.gssqc1 ⟨29, 0, 2, 0x100⟩) = false := by decide
theorem test_well_formed_ends :
    Instr.wellFormed .sourceFigure (.gslq ⟨4, 2, 3, 0x180⟩) = true
      ∧ Instr.wellFormed .sourceFigure (.gslq ⟨4, 2, 3, 0x07F⟩) = true
      ∧ Instr.wellFormed .toolchain (.gslq ⟨4, 2, 3, 0x100⟩) = true := by decide

/-! ### Quad forms: 95 section 2.3 -/

theorem test_q1_gslq :
    gpr (run q1 0xC88200C3) 2 = some 0x0706050403020100 ∧ gpr (run q1 0xC88200C3) 3 = some 0x0F0E0D0C0B0A0908 := by
  decide

/-- Q9: the address comes from the old x[4]. -/
theorem test_q9_destination_is_base :
    gpr (run (withBytes q1 0x1000 [0x11, 0x22, 0x33, 0x44, 0x55, 0x66, 0x77, 0x88]) 0xC8840043) 4
      = some 0x8877665544332211 := by decide

theorem test_q13_gslqc1 :
    fpr (run q13 0xCBA0FFC2) 0 = some 0x400921FB54442D18 ∧ fpr (run q13 0xCBA0FFC2) 2 = some 0xBFF0000000000000 := by
  decide

/-- Q15: coprocessor 2 is reported before coprocessor 1. -/
theorem test_q15_cop2_first :
    faultOf (run { oldCore q13 with cu1 := false } 0xCBA0FFC2) = some (.raised (.coprocessorUnusable 2) 0x100) := by
  decide

theorem test_q17_gssq :
    bytes (run q17 0xE8880049) 0x2000 16
      = some [0x88, 0x77, 0x66, 0x55, 0x44, 0x33, 0x22, 0x11, 0x00, 0xFF, 0xEE, 0xDD, 0xCC, 0xBB, 0xAA, 0x99] := by
  decide

/-- Q20: a multiple of 4 that is no multiple of 16. -/
theorem test_q20_gssq_misaligned :
    faultOf (run (withGprs q17 [(4, 0x2004)]) 0xE8880049) = some (.raised (.addressError .store 0x2004) 0x100) := by
  decide

theorem test_q22_gssqc1 :
    bytes (run q22 0xEBA0C042) 0x7FFEF800 16
      = some [0, 0, 0, 0, 0, 0, 0xF0, 0x3F, 0, 0, 0, 0, 0, 0, 0, 0xC0] := by decide

/-- Q23. -/
theorem test_q23_gssqc1_cu1_off :
    faultOf (run { q22 with cu1 := false } 0xEBA0C042) = some (.raised (.coprocessorUnusable 1) 0x100) := by decide

/-- Q10 and Q5. -/
theorem test_q10_same_destination : refusalIn (run q1 0xC8820042) = some .quadLoadSameDestination := by decide

/-! ### Indexed loads: 95 section 2.4 -/

/-- X4: the sum wraps to 0x1. -/
theorem test_x4_gslbx_wraps :
    gpr (run (withBytes (withGprs .reset [(4, 0xFFFFFFFFFFFFFFFF), (5, 2)]) 1 [0x42]) 0xD8822800) 2 = some 0x42 := by
  decide

/-- X1: the byte 80 is sign-extended. -/
theorem test_x1_gslbx_sign :
    gpr (run (withBytes (withGprs .reset [(4, 0x3000), (5, 1)]) 0x3000 [0x80]) 0xD8822FF8) 2
      = some 0xFFFFFFFFFFFFFF80 := by decide

theorem test_x10_gslhx : gpr (run blockB 0xD8822811) 2 = some 0x1234 := by decide

/-- X12: an indexed load is tested on every processor. -/
theorem test_x12_gslhx_misaligned :
    faultOf (run (withParams blockB fun p => { p with unaligned := true }) 0xD8822809)
      = some (.raised (.addressError .load 0x3011) 0x100) := by decide

theorem test_x13_gslwx : gpr (run blockB 0xD8822822) 2 = some 0xFFFFFFFF80000001 := by decide

/-- X13 under `BIG`. -/
theorem test_x13_gslwx_big :
    gpr (run (withParams blockB fun p => { p with byteOrder := .big }) 0xD8822822) 2 = some 0x01000080 := by decide

theorem test_x17_gsldx : gpr (run blockB 0xD8822843) 2 = some 0x8877665544332211 := by decide

/-- X29: refused on GS464 with cu2 = 0. -/
theorem test_x29_gsldx_cu2_off : refusalIn (run (oldCore blockB) 0xD8822843) = some .indexedOnGs464Cu2Off := by decide

theorem test_x21_gslwxc1 : fpr (run blockB 0xD8822826) 2 = some 0xFFFFFFFF80000001 := by decide

theorem test_x24_gslwxc1_cu1_off :
    faultOf (run { blockB with cu1 := false } 0xD8822826) = some (.raised (.coprocessorUnusable 1) 0x100) := by decide

/-- X25: f[0] is an ordinary register, and x[0] stays 0. -/
theorem test_x25_gsldxc1 :
    fpr (run blockB 0xD8802847) 0 = some 0x8877665544332211 ∧ gpr (run blockB 0xD8802847) 0 = some 0 := by decide

/-- X7: register 0 discards the loaded byte. -/
theorem test_x7_register_zero : gpr (run blockB 0xD8802800) 0 = some 0 := by decide

/-! ### Indexed stores: 95 section 2.5 -/

/-- S2: one byte, at 0x401F. -/
theorem test_s2_gssbx : bytes (run blockS 0xF8822FF8) 0x401F 2 = some [0x88, 0xEE] := by decide

/-- S5: a misaligned halfword where `UNALIGNED` is true. -/
theorem test_s5_gsshx :
    bytes (run (withParams blockS fun p => { p with unaligned := true }) 0xF8822819) 0x4022 4
      = some [0xEE, 0x88, 0x77, 0xEE] := by decide

/-- S4: and where it is false. -/
theorem test_s4_gsshx_misaligned :
    faultOf (run blockS 0xF8822819) = some (.raised (.addressError .store 0x4023) 0x100) := by decide

/-- S6: bits 31 to 0 only. -/
theorem test_s6_gsswx : bytes (run blockS 0xF8822822) 0x4023 6 = some [0xEE, 0x88, 0x77, 0x66, 0x55, 0xEE] := by decide

theorem test_s9_gssdx :
    bytes (run blockS 0xF8822843) 0x4028 8 = some [0x88, 0x77, 0x66, 0x55, 0x44, 0x33, 0x22, 0x11] := by decide

/-- S12: register 0 stores zero. -/
theorem test_s12_gssdx_zero : bytes (run blockS 0xF8802803) 0x4020 8 = some [0, 0, 0, 0, 0, 0, 0, 0] := by decide

theorem test_s14_gsswxc1 : bytes (run blockS 0xF8822806) 0x4020 5 = some [0x00, 0x00, 0x80, 0x3F, 0xEE] := by decide

theorem test_s18_gssdxc1 :
    bytes (run blockS 0xF8822847) 0x4028 8 = some [0x00, 0x00, 0x80, 0x3F, 0x00, 0x00, 0x00, 0xC0] := by decide

/-! ### The other parameters: 95 section 2.6 -/

/-- V1. -/
theorem test_v1_addr_allowed :
    faultOf (run (withParams blockB fun p => { p with denied := [⟨0x3012, 0x3012, some 2, some .load⟩] }) 0xD8822811)
      = some (.raised (.addressError .load 0x3012) 0x100) := by decide

/-- V2. -/
theorem test_v2_tlb_refill :
    faultOf (run (withParams blockB fun p => { p with units := [⟨0x3012, 0x3012, some .load, .tlbRefill⟩] }) 0xD8822811)
      = some (.raised (.tlbRefill .load 0x3012) 0x100) := by decide

/-- V3: alignment is tested before translation. -/
theorem test_v3_alignment_first :
    faultOf (run (withParams blockB fun p => { p with units := [⟨0, 2 ^ 64 - 1, none, .tlbInvalid⟩] }) 0xD8822809)
      = some (.raised (.addressError .load 0x3011) 0x100) := by decide

/-- V7: Watch before Bus Error. -/
theorem test_v7_watch_before_bus :
    faultOf (run (withParams blockS fun p =>
        { p with watch := [⟨0, 2 ^ 64 - 1, none, none⟩], busFaults := [⟨0, 2 ^ 64, none⟩] }) 0xF8822811)
      = some (.raised (.watch .store 0x4022) 0x100) := by decide

/-- V6. -/
theorem test_v6_bus_error :
    faultOf (run (withParams blockS fun p => { p with busFaults := [⟨0x4022, 0x4022, some 2⟩] }) 0xF8822811)
      = some (.raised (.busError 0x4022 0x4022) 0x100) := by decide

/-- V10. -/
theorem test_v10_tlb_modified :
    faultOf (run (withParams q17 fun p => { p with units := [⟨0x2000, 0x2FFF, none, .tlbModified⟩] }) 0xE8880049)
      = some (.raised (.tlbModified 0x2000) 0x100) := by decide

/-- V11: the second doubleword is at pAddr + 8. -/
theorem test_v11_translated_store :
    bytes (run (withParams q17 fun p => { p with units := [⟨0, 2 ^ 64 - 1, some .store, .mapped 0x10000 0⟩] }) 0xE8880049)
      0x12008 8 = some [0x00, 0xFF, 0xEE, 0xDD, 0xCC, 0xBB, 0xAA, 0x99] := by decide

/-- V12: stuck outside the launch memory. -/
theorem test_v12_stuck :
    faultOf (run { blockB with ram := [⟨0, 0x3012⟩] } 0xD8822811) = some (.outsideLaunchMemory .load 0x3012 2) := by
  decide

/-- R62: a store into the program text at 0x100. -/
theorem test_store_to_text :
    refusalIn (run (withGprs blockS [(4, 0x100), (5, 0)]) 0xF8822822)
      = none ∧ refusalIn (run (withGprs blockS [(4, 0xFC), (5, 0)]) 0xF8822822) = some .storeToProgramText := by decide

/-- R59: a misaligned quad load over two units. -/
theorem test_crosses_unit :
    refusalIn (run (withParams (withGprs q1 [(4, 0x1008)]) fun p =>
        { p with unaligned := true, units := [⟨0x1010, 0x101F, none, .mapped 0x5000 0⟩] }) 0xC8820043)
      = some .accessCrossesTranslationUnit := by decide

/-! ### Runs: R193, R195, R196, R27 -/

theorem test_reset_has_no_program : faultOf (step .reset) = some .runEnded := by decide

theorem test_bad_launch : refusalIn (launch .reset) = some .badLaunch
    ∧ refusalIn (step { State.reset with pc := 0x102 }) = some .badLaunch := by decide

/-- Fetch goes through Translate (R42): with every load 0x10000 higher, the word for pc = 0x100 stands at 0x10100; a store there
is refused (R62), and where Translate answers an exception the fetch raises none (R195, V3). -/
def shifted : State := (allUnit (withGprs .reset [(4, 0x10100)]) (some .load) (.mapped 0x10000 0)).withFetchWord 32 0xE8880049
theorem test_fetch_translated :
    bytes (.next shifted) 0x10100 4 = some [0x49, 0x00, 0x88, 0xE8] ∧ bytes (.next shifted) 0x100 4 = some [0, 0, 0, 0]
      ∧ refusalIn (step shifted) = some .storeToProgramText
      ∧ refusalIn (step (shifted.writeGpr 4 0x100)) = some .storeToProgramText
      ∧ isNext (step (shifted.writeGpr 4 0x2000)) = true := by decide
theorem test_fetch_raises_nothing :
    faultOf (run (allUnit blockB none .tlbInvalid) 0xD8822811) = some (.raised (.tlbInvalid .load 0x3012) 0x100)
      ∧ faultOf (run (allUnit blockB none .addressError) 0xD8822811) = some (.raised (.addressError .load 0x3012) 0x100) := by
  decide

theorem test_pc_outside_text : refusalIn (step { q1.withFetchWord 32 0xC88200C3 with pc := 0x200 }) = some .notInScope := by
  decide

/-- The last instruction address of the address space. -/
theorem test_pc_wraps :
    refusalIn (run { q1 with pc := 0xFFFFFFFFFFFFFFFC } 0xC88200C3) = some .pcWraps := by decide

/-! ### Witnesses: for each statement with hypotheses, data that meets all of them together -/

theorem exists_next {o : Outcome} (h : isNext o = true) : ∃ t, o = .next t := by
  cases o with
  | next t => exact ⟨t, rfl⟩
  | fault r => cases h
  | refused r => cases h

/-- The quad load and store and the indexed load and store used below. -/
abbrev iq : Instr := .gslq ⟨4, 2, 3, 1⟩
abbrev jq : Instr := .gssq ⟨4, 8, 9, 0⟩
abbrev ix : Instr := .gslhx ⟨4, 2, 5, 2⟩
abbrev jx : Instr := .gsshx ⟨4, 2, 5, 2⟩

theorem witness_DecodeInvertsEncode :
    Instr.wellFormed .sourceFigure (.gslq ⟨31, 31, 31, 0x180⟩) = true
      ∧ Instr.wellFormed .toolchain (.gssqc1 ⟨29, 0, 2, 0x100⟩) = true
      ∧ Instr.wellFormed .sourceFigure (.gssdxc1 ⟨4, 2, 5, 0x80⟩) = true := by decide

theorem witness_EncodeInvertsDecode :
    decodeWord .sourceFigure 0xCBFF7FDF = .ok (.gslq ⟨31, 31, 31, -1⟩)
      ∧ decodeWord .toolchain 0xEBA0C022 = .ok (.gssqc1 ⟨29, 0, 2, 0x100⟩)
      ∧ decodeWord .toolchain 0xF8822847 = .ok (.gssdxc1 ⟨4, 2, 5, 8⟩) := by decide

/-- Each refusal, and the word with bits 6 and 5 as an instruction has them. -/
theorem witness_ReservedQuadWordsRefused :
    decodeWord .sourceFigure 0xC8000020 = .error .reservedQFmt0
      ∧ decodeWord .sourceFigure 0xE8000060 = .error .reservedQRt1Bit5
      ∧ decodeWord .sourceFigure 0xE8000040 = .ok (.gssq ⟨0, 0, 0, 0⟩) := by decide

theorem witness_ReservedIndexedAndForeignWordsRefused :
    decodeWord .sourceFigure 0xD8000004 = .error .reservedXOp0
      ∧ decodeWord .toolchain 0xF8000005 = .error .reservedXOp0
      ∧ decodeWord .sourceFigure 0xF8000006 = .ok (.gsswxc1 ⟨0, 0, 0, 0⟩)
      ∧ decodeWord .toolchain 0xCC000000 = .error .notInScope := by decide

theorem witness_QuadLayoutsAcceptDisjointWords :
    QuadLayout.sourceFigure ≠ .toolchain
      ∧ decodeWord .sourceFigure 0xC88200C3 = .ok iq ∧ formatOf iq = .quad
      ∧ decodeWord .toolchain 0xC8820063 = .ok iq
      ∧ decodeWord .sourceFigure 0xD8822811 = .ok ix ∧ formatOf ix = .indexed := by decide

theorem witness_QuadImmediateScaledBySixteen :
    decodeWord .sourceFigure 0xC8824043 = .ok (.gslq ⟨4, 2, 3, -128⟩)
      ∧ quadOperands (.gslq ⟨4, 2, 3, -128⟩) = some ⟨4, 2, 3, -128⟩
      ∧ (quadDisp ⟨4, 2, 3, -128⟩).toInt = -2048
      ∧ decodeWord .sourceFigure 0xC8823FC3 = .ok (.gslq ⟨4, 2, 3, 127⟩)
      ∧ quadOperands (.gslq ⟨4, 2, 3, 127⟩) = some ⟨4, 2, 3, 127⟩
      ∧ (quadDisp ⟨4, 2, 3, 127⟩).toInt = 2032 := by decide

/-- T4's offset, the most negative one, and the largest, 255. -/
theorem witness_ToolchainQuadImmediateIsNineBits :
    decodeWord .toolchain 0xEBA0C022 = .ok (.gssqc1 ⟨29, 0, 2, 0x100⟩)
      ∧ quadOperands (.gssqc1 ⟨29, 0, 2, 0x100⟩) = some ⟨29, 0, 2, 0x100⟩
      ∧ (quadDisp ⟨29, 0, 2, 0x100⟩).toInt = -4096
      ∧ decodeWord .toolchain 0xC8823FE3 = .ok (.gslq ⟨4, 2, 3, 0x0FF⟩)
      ∧ quadOperands (.gslq ⟨4, 2, 3, 0x0FF⟩) = some ⟨4, 2, 3, 0x0FF⟩
      ∧ (quadDisp ⟨4, 2, 3, 0x0FF⟩).toInt = 4080 := by decide

theorem witness_IndexedImmediateUnscaled :
    decodeWord .sourceFigure 0xD8822C00 = .ok (.gslbx ⟨4, 2, 5, -128⟩)
      ∧ indexedOperands (.gslbx ⟨4, 2, 5, -128⟩) = some ⟨4, 2, 5, -128⟩
      ∧ (indexedDisp ⟨4, 2, 5, -128⟩).toInt = -128
      ∧ decodeWord .toolchain 0xD8822BF8 = .ok (.gslbx ⟨4, 2, 5, 127⟩)
      ∧ indexedOperands (.gslbx ⟨4, 2, 5, 127⟩) = some ⟨4, 2, 5, 127⟩
      ∧ (indexedDisp ⟨4, 2, 5, 127⟩).toInt = 127 := by decide

/-- Register 31 keeps what is written, beside register 0. -/
theorem witness_GeneralRegisterZeroHardwired :
    (31#5 : RegNum) ≠ 0#5 ∧ (State.reset.writeGpr 31 7).readGpr 31 = 7 ∧ (State.reset.writeGpr 31 7).readGpr 30 = 0
      ∧ (State.reset.writeGpr 0 7).readGpr 0 = 0 := by decide

/-- The first and the last byte of a doubleword, in both byte orders. -/
theorem witness_LittleEndianByteLanes :
    (0 < 8 ∧ 7 < 8)
      ∧ (Memory.writeValue [] .little 16 8 0x1122334455667788#64).read 16 = 0x88
      ∧ (Memory.writeValue [] .little 16 8 0x1122334455667788#64).read 23 = 0x11 := by decide
theorem witness_BigEndianByteLanes :
    (0 < 8 ∧ 7 < 8)
      ∧ (Memory.writeValue [] .big 16 8 0x1122334455667788#64).read 16 = 0x11
      ∧ (Memory.writeValue [] .big 16 8 0x1122334455667788#64).read 23 = 0x88 := by decide

/-- The bytes next to the written ones. -/
theorem witness_MemoryReadsBackWhatWasWritten :
    (15 < 16 ∨ 16 + 8 ≤ 15) ∧ (24 < 16 ∨ 16 + 8 ≤ 24)
      ∧ Memory.read (Memory.writeValue [(15, 1), (24, 2)] .little 16 8 0x1122334455667788#64) 15 = 1
      ∧ Memory.read (Memory.writeValue [(15, 1), (24, 2)] .little 16 8 0x1122334455667788#64) 24 = 2 := by decide

theorem witness_NarrowReadsOfADoubleword :
    (7 < 8 ∧ 3 < 4 ∧ 1 < 2)
      ∧ (Memory.writeValue [] .little 16 8 0x1122334455667788#64).readValue .little (16 + 7) 1 = 0x11#8
      ∧ (Memory.writeValue [] .little 16 8 0x1122334455667788#64).readValue .little (16 + 2 * 3) 2 = 0x1122#16
      ∧ (Memory.writeValue [] .little 16 8 0x1122334455667788#64).readValue .little (16 + 4 * 1) 4 = 0x11223344#32 := by
  decide

/-! #### Results: access granted -/

theorem witness_GslqLoadsTwoDoublewords :
    CoprocessorsOn q1 false ∧ (2#5 : RegNum) ≠ 3#5
      ∧ AccessGranted q1 .quad .load 16 (q1.readGpr 4 + (1#9).signExtend 64 * 16#64) 0x1010 := by decide
theorem witness_Gslqc1LoadsTwoDoublewords :
    CoprocessorsOn q13 true ∧ (0#5 : RegNum) ≠ 2#5
      ∧ AccessGranted q13 .quad .load 16 (q13.readGpr 29 + (0x1FF#9).signExtend 64 * 16#64) 0x7FFEFFF0 := by decide
theorem witness_GssqStoresTwoDoublewords :
    CoprocessorsOn q17 false
      ∧ AccessGranted q17 .quad .store 16 (q17.readGpr 4 + (0#9).signExtend 64 * 16#64) 0x2000 := by decide
theorem witness_Gssqc1StoresTwoDoublewords :
    CoprocessorsOn q22 true
      ∧ AccessGranted q22 .quad .store 16 (q22.readGpr 29 + (0x180#9).signExtend 64 * 16#64) 0x7FFEF800 := by decide
theorem witness_GslbxLoadsSignExtendedByte :
    CoprocessorsOn blockB false
      ∧ AccessGranted blockB .indexed .load 1 (blockB.readGpr 4 + blockB.readGpr 5 + (0xFF#8).signExtend 64) 0x300F := by decide
theorem witness_GslhxLoadsSignExtendedHalfword :
    CoprocessorsOn blockB false
      ∧ AccessGranted blockB .indexed .load 2 (blockB.readGpr 4 + blockB.readGpr 5 + (2#8).signExtend 64) 0x3012 := by decide
theorem witness_GslwxLoadsSignExtendedWord :
    CoprocessorsOn blockB false
      ∧ AccessGranted blockB .indexed .load 4 (blockB.readGpr 4 + blockB.readGpr 5 + (4#8).signExtend 64) 0x3014 := by decide
theorem witness_GsldxLoadsDoubleword :
    CoprocessorsOn blockB false
      ∧ AccessGranted blockB .indexed .load 8 (blockB.readGpr 4 + blockB.readGpr 5 + (8#8).signExtend 64) 0x3018 := by decide
theorem witness_Gslwxc1LoadsSignExtendedWord :
    CoprocessorsOn blockB true
      ∧ AccessGranted blockB .indexed .load 4 (blockB.readGpr 4 + blockB.readGpr 5 + (4#8).signExtend 64) 0x3014 := by decide
theorem witness_Gsldxc1LoadsDoubleword :
    CoprocessorsOn blockB true
      ∧ AccessGranted blockB .indexed .load 8 (blockB.readGpr 4 + blockB.readGpr 5 + (8#8).signExtend 64) 0x3018 := by decide
theorem witness_GssbxStoresLowByte :
    CoprocessorsOn blockS false
      ∧ AccessGranted blockS .indexed .store 1 (blockS.readGpr 4 + blockS.readGpr 5 + (0xFF#8).signExtend 64) 0x401F := by decide
theorem witness_GsshxStoresLowHalfword :
    CoprocessorsOn blockS false
      ∧ AccessGranted blockS .indexed .store 2 (blockS.readGpr 4 + blockS.readGpr 5 + (2#8).signExtend 64) 0x4022 := by decide
theorem witness_GsswxStoresLowWord :
    CoprocessorsOn blockS false
      ∧ AccessGranted blockS .indexed .store 4 (blockS.readGpr 4 + blockS.readGpr 5 + (4#8).signExtend 64) 0x4024 := by decide
theorem witness_GssdxStoresDoubleword :
    CoprocessorsOn blockS false
      ∧ AccessGranted blockS .indexed .store 8 (blockS.readGpr 4 + blockS.readGpr 5 + (8#8).signExtend 64) 0x4028 := by decide
theorem witness_Gsswxc1StoresLowWord :
    CoprocessorsOn blockS true
      ∧ AccessGranted blockS .indexed .store 4 (blockS.readGpr 4 + blockS.readGpr 5 + (0#8).signExtend 64) 0x4020 := by decide
theorem witness_Gssdxc1StoresDoubleword :
    CoprocessorsOn blockS true
      ∧ AccessGranted blockS .indexed .store 8 (blockS.readGpr 4 + blockS.readGpr 5 + (8#8).signExtend 64) 0x4028 := by decide

/-! #### Stops -/

/-- Both clauses: the table's test fails, and an Address Error at an aligned address. -/
theorem witness_AlignmentTableDecidesAddressErrors :
    (let s := withGprs blockB [(5, 0x11)];
      CoprocessorsOn s (touchesFpr ix) ∧ sameDestinations ix = false ∧ formatOf ix = .indexed ∧ accessOf ix = .load
        ∧ (addressOf ix s).toNat % bytesMoved ix ≠ 0)
      ∧ (let s := withParams blockB fun p => { p with denied := [⟨0x3012, 0x3012, some 2, some .load⟩] };
        faultOf (exec ix s) = some (.raised (.addressError .load 0x3012) 0x100)
          ∧ (addressOf ix s).toNat % bytesMoved ix = 0)
      ∧ (let s := withParams (withGprs q17 [(4, 0x2008)]) fun p =>
            { p with unaligned := true, units := [⟨0, 2 ^ 64 - 1, none, .addressError⟩] };
        faultOf (exec jq s) = some (.raised (.addressError .store 0x2008) 0x100)
          ∧ formatOf jq = .quad ∧ s.params.unaligned = true) := by decide

theorem witness_CoprocessorTwoNeededOnGs464Only :
    (oldCore q1).params.core = .gs464 ∧ (oldCore q1).cu2 = false ∧ formatOf iq = .quad ∧ formatOf ix = .indexed
      ∧ State.reset.params.core = .gs464ePlus := by decide

theorem witness_CoprocessorOneNeededForFloatingForms :
    (let s := { q13 with cu1 := false };
      ¬(s.params.core = .gs464 ∧ s.cu2 = false) ∧ touchesFpr (.gslqc1 ⟨29, 0, 2, -1⟩) = true ∧ s.cu1 = false)
      ∧ ¬(q1.params.core = .gs464 ∧ q1.cu2 = false) := by decide

/-- Every hypothesis of the first clause with each of the three answers, and the raised exceptions of the others. -/
theorem witness_TlbExceptionsFollowTranslate :
    (let s := allUnit q1 none .tlbRefill;
      CoprocessorsOn s (touchesFpr iq) ∧ sameDestinations iq = false
        ∧ Aligned s (formatOf iq) (accessOf iq) (bytesMoved iq) (addressOf iq s)
        ∧ addrAllowed s.params (addressOf iq s) (bytesMoved iq) (accessOf iq) = true
        ∧ addressTranslation s.params (addressOf iq s) (accessOf iq) = .tlbRefill
        ∧ faultOf (exec iq s) = some (.raised (.tlbRefill .load 0x1010) 0x100))
      ∧ (let s := allUnit blockB (some .load) .tlbInvalid;
        addressTranslation s.params (addressOf ix s) (accessOf ix) = .tlbInvalid
          ∧ faultOf (exec ix s) = some (.raised (.tlbInvalid .load 0x3012) 0x100))
      ∧ (let s := allUnit blockS none .tlbModified;
        addressTranslation s.params (addressOf jx s) (accessOf jx) = .tlbModified
          ∧ faultOf (exec jx s) = some (.raised (.tlbModified 0x4022) 0x100)) := by decide

theorem witness_WatchAndBusErrorFollowTheirParameters :
    (let s := withParams blockB fun p => { p with watch := [⟨0x3012, 0x3012, some 2, some .load⟩] };
      faultOf (exec ix s) = some (.raised (.watch .load 0x3012) 0x100)
        ∧ watchHit s.params (addressOf ix s) (bytesMoved ix) (accessOf ix) = true)
      ∧ (let s := withParams blockS fun p => { p with busFaults := [⟨0x4022, 0x4022, some 2⟩] };
        faultOf (exec jx s) = some (.raised (.busError 0x4022 0x4022) 0x100)
          ∧ CoprocessorsOn s (touchesFpr jx) ∧ formatOf jx = .indexed
          ∧ Aligned s .indexed (accessOf jx) (bytesMoved jx) (addressOf jx s)
          ∧ addrAllowed s.params (addressOf jx s) (bytesMoved jx) (accessOf jx) = true
          ∧ translatesTo s.params (addressOf jx s) (accessOf jx) 0x4022 = true
          ∧ watchHit s.params (addressOf jx s) (bytesMoved jx) (accessOf jx) = false
          ∧ accessOf jx = .store ∧ busFault s.params 0x4022 (bytesMoved jx) = true) := by decide

theorem witness_OnlyListedExceptionsAreRaised :
    faultOf (exec jq (allUnit q17 none .tlbModified)) = some (.raised (.tlbModified 0x2000) 0x100)
      ∧ faultOf (exec (.gslqc1 ⟨29, 0, 2, -1⟩) { q13 with cu1 := false }) = some (.raised (.coprocessorUnusable 1) 0x100) := by
  decide

/-- Each of the eleven tests of the order first. -/
theorem witness_FirstTestInPriorityOrderDecides_enables :
    firstTrue (exceptionOrder iq { oldCore q1 with cu1 := false }) = some (.fault (.raised (.coprocessorUnusable 2) 0x100))
      ∧ firstTrue (exceptionOrder ix (oldCore blockB)) = some (.refused .indexedOnGs464Cu2Off)
      ∧ firstTrue (exceptionOrder (.gslwxc1 ⟨4, 2, 5, 3⟩) { blockB with cu1 := false })
        = some (.fault (.raised (.coprocessorUnusable 1) 0x100))
      ∧ firstTrue (exceptionOrder (.gslq ⟨4, 2, 2, 1⟩) (withGprs q1 [(4, 0x1001)]))
        = some (.refused .quadLoadSameDestination) := by decide
theorem witness_FirstTestInPriorityOrderDecides_address :
    firstTrue (exceptionOrder ix (allUnit (withGprs blockB [(5, 0x11)]) none .tlbRefill))
        = some (.fault (.raised (.addressError .load 0x3013) 0x100))
      ∧ firstTrue (exceptionOrder ix
          (withParams (allUnit blockB none .tlbInvalid) fun p => { p with denied := [⟨0, 2 ^ 64, none, none⟩] }))
        = some (.fault (.raised (.addressError .load 0x3012) 0x100))
      ∧ firstTrue (exceptionOrder ix (allUnit blockB none .tlbRefill))
        = some (.fault (.raised (.tlbRefill .load 0x3012) 0x100))
      ∧ firstTrue (exceptionOrder ix (allUnit blockB none .tlbInvalid))
        = some (.fault (.raised (.tlbInvalid .load 0x3012) 0x100))
      ∧ firstTrue (exceptionOrder jx (allUnit blockS none .tlbModified))
        = some (.fault (.raised (.tlbModified 0x4022) 0x100))
      ∧ firstTrue (exceptionOrder jx (allUnit blockS none .addressError))
        = some (.fault (.raised (.addressError .store 0x4022) 0x100)) := by decide
theorem witness_FirstTestInPriorityOrderDecides_after :
    firstTrue (exceptionOrder jx (withParams blockS fun p =>
        { p with watch := [⟨0, 2 ^ 64, none, none⟩], busFaults := [⟨0, 2 ^ 64, none⟩] }))
        = some (.fault (.raised (.watch .store 0x4022) 0x100))
      ∧ firstTrue (exceptionOrder jx (withParams blockS fun p => { p with busFaults := [⟨0, 2 ^ 64, none⟩] }))
        = some (.fault (.raised (.busError 0x4022 0x4022) 0x100))
      ∧ firstTrue (exceptionOrder jx blockS) = none ∧ firstTrue (exceptionOrder iq q1) = none := by decide

theorem witness_DefaultParametersRaiseThreeExceptionsOnly :
    (let s := withGprs blockB [(5, 0x11)];
      s.params.units = [] ∧ s.params.denied = [] ∧ s.params.watch = [] ∧ s.params.busFaults = []
        ∧ faultOf (exec ix s) = some (.raised (.addressError .load 0x3013) 0x100))
      ∧ faultOf (exec (.gslqc1 ⟨29, 0, 2, -1⟩) { q13 with cu1 := false }) = some (.raised (.coprocessorUnusable 1) 0x100) := by
  decide

theorem witness_SameDestinationQuadLoadRefused :
    CoprocessorsOn q1 (touchesFpr (.gslq ⟨4, 2, 2, 1⟩)) ∧ sameDestinations (.gslq ⟨4, 2, 2, 1⟩) = true
      ∧ CoprocessorsOn q1 (touchesFpr iq) ∧ sameDestinations iq = false := by decide

/-- The hypotheses with each of the four outcomes: two units, missing memory, the program text, and none of these. -/
def Unstopped (i : Instr) (s : State) (a : Nat) : Prop :=
  CoprocessorsOn s (touchesFpr i) ∧ sameDestinations i = false
    ∧ Aligned s (formatOf i) (accessOf i) (bytesMoved i) (addressOf i s)
    ∧ addrAllowed s.params (addressOf i s) (bytesMoved i) (accessOf i) = true
    ∧ translatesTo s.params (addressOf i s) (accessOf i) a = true
    ∧ (formatOf i = .indexed → watchHit s.params (addressOf i s) (bytesMoved i) (accessOf i) = false)
    ∧ (formatOf i = .indexed → accessOf i = .store → busFault s.params a (bytesMoved i) = false)

theorem witness_UnadmittedAccessStops_unit :
    let s := withParams blockS fun p => { p with units := [⟨0x4023, 0x4023, none, .tlbInvalid⟩] }
    Unstopped jx s 0x4022 ∧ crossesUnit s.params (addressOf jx s) (bytesMoved jx) (accessOf jx) = true
      ∧ refusalIn (exec jx s) = some .accessCrossesTranslationUnit := by
  unfold Unstopped
  decide
theorem witness_UnadmittedAccessStops_memory :
    let s := { blockS with ram := [⟨0, 0x4023⟩] }
    Unstopped jx s 0x4022 ∧ crossesUnit s.params (addressOf jx s) (bytesMoved jx) (accessOf jx) = false
      ∧ existsAt s.ram (0x4022 + 0) = true ∧ existsAt s.ram (0x4022 + 1) = false
      ∧ faultOf (exec jx s) = some (.outsideLaunchMemory .store 0x4022 2) := by
  unfold Unstopped
  decide
theorem witness_UnadmittedAccessStops_text :
    let s := { blockS with textBase := 0x4020, textLen := 1 }
    Unstopped jx s 0x4022 ∧ accessOf jx = .store ∧ s.textBase.toNat ≤ 0x4022 + 1 ∧ 0x4022 + 1 < s.textEnd
      ∧ refusalIn (exec jx s) = some .storeToProgramText := by
  unfold Unstopped
  decide
theorem witness_UnadmittedAccessStops_next :
    let s := { blockS with textBase := 0x4024, textLen := 1 }
    Unstopped jx s 0x4022 ∧ isNext (exec jx s) = true := by
  unfold Unstopped
  decide

/-- An aligned load, and a load of the two formats. -/
theorem witness_TranslateAddressErrorIsRaised :
    let u : TransUnit := ⟨0, 2 ^ 64 - 1, none, .addressError⟩
    let s := allUnit blockB none .addressError
    CoprocessorsOn s (touchesFpr ix) ∧ sameDestinations ix = false
      ∧ s.params.units.find? (fun u => unitCovers u (addressOf ix s) (accessOf ix)) = some u ∧ u.answer = .addressError
      ∧ faultOf (exec ix s) = some (.raised (.addressError .load 0x3012) 0x100)
      ∧ accessOf ix = .load ∧ accessOf iq = .load := by decide

/-! #### What completes -/

theorem witness_NarrowLoadsSignExtendNarrowStoresTruncate :
    (∃ t, exec (.gslbx ⟨4, 2, 5, 0xFF⟩) blockB = .next t) ∧ (∃ t, exec (.gslhx ⟨4, 2, 5, 2⟩) blockB = .next t)
      ∧ (∃ t, exec (.gslwx ⟨4, 2, 5, 4⟩) blockB = .next t) ∧ (∃ t, exec (.gslwxc1 ⟨4, 2, 5, 4⟩) blockB = .next t)
      ∧ (∃ t, exec (.gssbx ⟨4, 2, 5, 0⟩) blockS = .next t) ∧ (∃ t, exec (.gsshx ⟨4, 2, 5, 2⟩) blockS = .next t)
      ∧ (∃ t, exec (.gsswx ⟨4, 2, 5, 4⟩) blockS = .next t) ∧ (∃ t, exec (.gsswxc1 ⟨4, 2, 5, 0⟩) blockS = .next t) :=
  ⟨exists_next (by decide), exists_next (by decide), exists_next (by decide), exists_next (by decide),
    exists_next (by decide), exists_next (by decide), exists_next (by decide), exists_next (by decide)⟩
/-- The addresses those reach. -/
theorem witness_NarrowLoadsSignExtendNarrowStoresTruncate_addresses :
    translatesTo blockB.params (indexedAddr blockB ⟨4, 2, 5, 0xFF⟩) .load 0x300F = true
      ∧ translatesTo blockB.params (indexedAddr blockB ⟨4, 2, 5, 2⟩) .load 0x3012 = true
      ∧ translatesTo blockB.params (indexedAddr blockB ⟨4, 2, 5, 4⟩) .load 0x3014 = true
      ∧ translatesTo blockS.params (indexedAddr blockS ⟨4, 2, 5, 0⟩) .store 0x4020 = true
      ∧ translatesTo blockS.params (indexedAddr blockS ⟨4, 2, 5, 2⟩) .store 0x4022 = true
      ∧ translatesTo blockS.params (indexedAddr blockS ⟨4, 2, 5, 4⟩) .store 0x4024 = true
      ∧ (2#5 : RegNum) ≠ 0#5 ∧ 8 ≤ 63 ∧ 63 < 64 := by decide

theorem witness_QuadFormsIgnoreWatchAndBusFault :
    formatOf jq = .quad ∧ isNext (exec jq (q17.rewatch [⟨0, 2 ^ 64, none, none⟩] [⟨0, 2 ^ 64, none⟩])) = true
      ∧ accessOf ix = .load ∧ isNext (exec ix (blockB.rewatch blockB.params.watch [⟨0, 2 ^ 64, none⟩])) = true := by decide

/-- Each load with a destination that is the base or the index, general register 0 among them, and a base that is the
index. -/
theorem witness_DestinationMayBeBaseOrIndex :
    (∃ t, exec (.gslbx ⟨4, 4, 5, 8⟩) blockB = .next t) ∧ (∃ t, exec (.gslhx ⟨4, 5, 5, 8⟩) blockB = .next t)
      ∧ (∃ t, exec (.gslwx ⟨4, 4, 5, 8⟩) blockB = .next t) ∧ (∃ t, exec (.gsldx ⟨4, 5, 5, 8⟩) blockB = .next t)
      ∧ (∃ t, exec (.gslwxc1 ⟨4, 4, 5, 8⟩) blockB = .next t) ∧ (∃ t, exec (.gsldxc1 ⟨4, 5, 5, 8⟩) blockB = .next t)
      ∧ (∃ t, exec (.gsldx ⟨0, 0, 0, 8⟩) blockB = .next t) :=
  ⟨exists_next (by decide), exists_next (by decide), exists_next (by decide), exists_next (by decide),
    exists_next (by decide), exists_next (by decide), exists_next (by decide)⟩
/-- The addresses those reach. -/
theorem witness_DestinationMayBeBaseOrIndex_addresses :
    translatesTo blockB.params (blockB.readGpr 4 + blockB.readGpr 5 + (8#8).signExtend 64) .load 0x3018 = true
      ∧ translatesTo blockB.params (blockB.readGpr 0 + blockB.readGpr 0 + (8#8).signExtend 64) .load 8 = true
      ∧ (XFields.mk 4 4 5 8).rt = (XFields.mk 4 4 5 8).rs ∧ (XFields.mk 4 5 5 8).rt = (XFields.mk 4 5 5 8).rd
      ∧ (XFields.mk 4 2 4 0).rs = (XFields.mk 4 2 4 0).rd := by decide

theorem witness_GprLoadsFrame :
    (∃ t, exec iq q1 = .next t) ∧ (∃ t, exec (.gslbx ⟨4, 2, 5, 0xFF⟩) blockB = .next t)
      ∧ (∃ t, exec (.gsldx ⟨4, 2, 5, 8⟩) blockB = .next t) ∧ (4#5 : RegNum) ∉ gprsWritten iq :=
  ⟨exists_next (by decide), exists_next (by decide), exists_next (by decide), by decide⟩

theorem witness_FprLoadsFrame :
    (∃ t, exec (.gslqc1 ⟨29, 0, 2, -1⟩) q13 = .next t) ∧ (∃ t, exec (.gslwxc1 ⟨4, 2, 5, 4⟩) blockB = .next t)
      ∧ (∃ t, exec (.gsldxc1 ⟨4, 0, 5, 8⟩) blockB = .next t) ∧ (1#5 : RegNum) ∉ fprsWritten (.gslqc1 ⟨29, 0, 2, -1⟩) :=
  ⟨exists_next (by decide), exists_next (by decide), exists_next (by decide), by decide⟩

/-- A quad store and an indexed store, and the bytes next to what they store. -/
theorem witness_StoresFrame :
    (∃ t, exec jq q17 = .next t) ∧ (∃ t, exec jx blockS = .next t) ∧ accessOf jq = .store ∧ accessOf jx = .store
      ∧ translatesTo q17.params (addressOf jq q17) .store 0x2000 = true
      ∧ translatesTo blockS.params (addressOf jx blockS) .store 0x4022 = true
      ∧ (0x1FFF < 0x2000 ∨ 0x2000 + bytesMoved jq ≤ 0x1FFF) ∧ (0x2010 < 0x2000 ∨ 0x2000 + bytesMoved jq ≤ 0x2010)
      ∧ (0x4024 < 0x4022 ∨ 0x4022 + bytesMoved jx ≤ 0x4024) :=
  ⟨exists_next (by decide), exists_next (by decide), by decide⟩

theorem witness_EveryInstructionAdvancesPcByFour :
    (∃ t, exec iq q1 = .next t) ∧ (∃ t, exec (.gssdxc1 ⟨4, 2, 5, 8⟩) blockS = .next t) :=
  ⟨exists_next (by decide), exists_next (by decide)⟩

/-! #### Steps and runs -/

/-- Each clause: an ordinary step, one at the last instruction address, and one that answers no next state. -/
theorem witness_StepRunsTheDecodedInstruction :
    (let s := q1.withFetchWord 32 0xC88200C3;
      badLaunch s = false ∧ s.pcInText = true ∧ FetchedFrom s.params s.pc 0x100
        ∧ decode s.params.quadLayout s.params.byteOrder (s.mem.readBytes 0x100 4) = .ok (iq, [])
        ∧ s.pc.toNat + 4 < 2 ^ 64)
      ∧ (let s := State.withFetchWord { q1 with pc := 0xFFFFFFFFFFFFFFFC } 32 0xC88200C3;
        badLaunch s = false ∧ s.pcInText = true ∧ FetchedFrom s.params s.pc 0xFFFFFFFFFFFFFFFC
          ∧ decode s.params.quadLayout s.params.byteOrder (s.mem.readBytes 0xFFFFFFFFFFFFFFFC 4) = .ok (iq, [])
          ∧ 2 ^ 64 ≤ s.pc.toNat + 4 ∧ isNext (exec iq s) = true)
      ∧ (let s := (withGprs q1 [(4, 0x1001)]).withFetchWord 32 0xC88200C3;
        badLaunch s = false ∧ s.pcInText = true ∧ FetchedFrom s.params s.pc 0x100
          ∧ decode s.params.quadLayout s.params.byteOrder (s.mem.readBytes 0x100 4) = .ok (iq, [])
          ∧ isNext (exec iq s) = false) := by decide

/-- The pc after, before and beyond the text. -/
theorem witness_RunEndsAfterTheProgramText :
    (let s := { q1.withFetchWord 32 0xC88200C3 with pc := 0x104 };
      badLaunch s = false ∧ s.pc.toNat = s.textEnd)
      ∧ (let s := { q1.withFetchWord 32 0xC88200C3 with pc := 0xFC };
        badLaunch s = false ∧ s.pc.toNat < s.textBase.toNat)
      ∧ (let s := { q1.withFetchWord 32 0xC88200C3 with pc := 0x108 };
        badLaunch s = false ∧ s.textEnd < s.pc.toNat) := by decide
/-- The word at pc of a program of one word, and the premises of the refusals. -/
def refusedWord (w : Nat) (e : DecodeError) : Bool :=
  let s := q1.withFetchWord 32 w
  !badLaunch s && s.pcInText && decide (FetchedFrom s.params s.pc 0x100)
    && match decode s.params.quadLayout s.params.byteOrder (s.mem.readBytes 0x100 4) with
      | .error d => d == e
      | .ok _ => false
/-- D2, D7, D10 and D11, refused under the names of R80 to R83. -/
theorem witness_RunEndsAfterTheProgramText_refusals :
    refusedWord 0xC8000000 .reservedQFmt0 = true ∧ refusedWord 0xE8008061 .reservedQRt1Bit5 = true
      ∧ refusedWord 0xD8822FFC .reservedXOp0 = true ∧ refusedWord 0x8C820000 .notInScope = true := by decide
/-- R80 to R83 in a step. -/
theorem test_refused_words :
    refusalIn (run q1 0xC8000000) = some .reservedQFmt0 ∧ refusalIn (run q1 0xE8008061) = some .reservedQRt1Bit5
      ∧ refusalIn (run q1 0xD8822FFC) = some .reservedXOp0 ∧ refusalIn (run q1 0x8C820000) = some .notInScope := by decide

/-- Each condition of R193 alone, and a launch that is good. -/
theorem witness_BadLaunchConditions :
    let s := q1.withFetchWord 32 0xC88200C3
    isNext (launch s) = true
      ∧ refusalIn (launch { s with pc := 0x101 }) = some .badLaunch
      ∧ refusalIn (launch { s with textBase := 0xFE, textLen := 2 }) = some .badLaunch
      ∧ refusalIn (launch { s with pc := 0x104 }) = some .badLaunch
      ∧ refusalIn (launch { s with ram := [⟨0, 0x103⟩] }) = some .badLaunch
      ∧ refusalIn (launch (withParams s fun p => { p with fpuMode := .other })) = some .badLaunch
      ∧ refusalIn (launch (withParams s fun p => { p with hasLext := false })) = some .badLaunch := by decide

/-- A state of a run that is not the reset state. -/
theorem witness_EveryStepKeepsTheInvariant :
    (q17.withFetchWord 32 0xE8880049).Inv ∧ ∃ t, step (q17.withFetchWord 32 0xE8880049) = .next t :=
  ⟨by unfold State.Inv; decide, exists_next (by decide)⟩

theorem witness_ProgramTextAndMissingMemoryNeverWritten :
    (let s := { q17.withFetchWord 32 0xE8880049 with ram := [⟨0, 0x2010⟩] };
      (∃ t, step s = .next t) ∧ s.textBase.toNat ≤ 0x103 ∧ 0x103 < s.textEnd ∧ existsAt s.ram 0x2010 = false) :=
  ⟨exists_next (by decide), by decide⟩

theorem launch_eq_next {s : State} (h : isNext (launch s) = true) : launch s = .next s := by
  unfold launch at *
  split <;> simp_all [isNext]

/-- A fetch through a unit, one of an exception, and the bytes of the text that a unit places elsewhere. -/
theorem witness_fetched :
    FetchedFrom shifted.params shifted.pc 0x10100 ∧ badLaunch shifted = false ∧ shifted.pcInText = true
      ∧ decode shifted.params.quadLayout shifted.params.byteOrder (shifted.mem.readBytes 0x10100 4) = .ok (jq, [])
      ∧ FetchedFrom (allUnit blockB none .tlbInvalid).params 0x100 0x100
      ∧ FetchedFrom (allUnit blockB none .addressError).params 0x100 0x100 := by decide
theorem witness_text_byte : shifted.TextByte 0x10103 ∧ shifted.TextByte 0x100 :=
  ⟨.inr ⟨0, by decide⟩, .inl (by decide)⟩

theorem witness_EveryRunIsFinite :
    let s := q17.withFetchWord 32 0xE8880049
    launch s = .next s ∧ ∃ t, Host.Core.run Sys2Proof.core 1 s = .next t :=
  ⟨launch_eq_next (by decide), exists_next (by decide)⟩

end Sys2Proof.Tests
end

section
/-! PROOFS. The family of spec/20_memory.md, part 1: what the memory accesses of an instruction read and write. -/

namespace Sys2Proof.Machine

/-! ### A value written reads back (R45) -/

theorem assemble_append (bs cs : List Byte) :
    assemble (bs ++ cs) = assemble bs + 256 ^ bs.length * assemble cs := by
  induction bs with
  | nil => simp [assemble]
  | cons b bs ih =>
    simp only [List.cons_append, assemble, ih, List.length_cons]
    ring

/-- The bytes of a value, put together again, are its low `8 * n` bits. -/
theorem assemble_splitBytes {w : Nat} (n : Nat) (v : BitVec w) :
    assemble (splitBytes n v) = v.toNat % 2 ^ (8 * n) := by
  induction n with
  | zero => simp [splitBytes, assemble, Nat.mod_one]
  | succ n ih =>
    have hs : splitBytes (n + 1) v = splitBytes n v ++ [v.extractLsb' (8 * n) 8] := by
      simp [splitBytes, List.range_succ]
    have h256 : 256 ^ n = 2 ^ (8 * n) := by rw [Nat.pow_mul]
    rw [hs, assemble_append, ih, length_splitBytes, h256, Nat.mul_succ, Nat.pow_add, Nat.mod_mul]
    simp [assemble, Nat.shiftRight_eq_div_pow]

@[simp] theorem arrange_arrange (o : ByteOrder) (bs : List Byte) : o.arrange (o.arrange bs) = bs := by
  cases o <;> simp [ByteOrder.arrange]

theorem Memory.readBytes_writeBytes (bs : List Byte) (m : Memory) (a : Nat) :
    (m.writeBytes a bs).readBytes a bs.length = bs := by
  induction bs generalizing m a with
  | nil => rfl
  | cons b bs ih =>
    rw [List.length_cons, Memory.readBytes, Memory.writeBytes, ih,
      Memory.read_writeBytes_of_outside bs _ _ _ (.inl (Nat.lt_succ_self a)), Memory.read_write, if_pos rfl]

theorem Memory.readValue_writeValue (m : Memory) (o : ByteOrder) (a n : Nat) (v : BitVec (8 * n)) :
    (m.writeValue o a n v).readValue o a n = v := by
  have hb := Memory.readBytes_writeBytes (o.arrange (splitBytes n v)) m a
  rw [length_arrange, length_splitBytes] at hb
  rw [Memory.readValue, Memory.writeValue, hb, arrange_arrange, assemble_splitBytes, Nat.mod_eq_of_lt v.isLt,
    BitVec.ofNat_toNat, BitVec.setWidth_eq]

@[simp] theorem State.memRead_advance (s : State) (a n : Nat) : s.advance.memRead a n = s.memRead a n := rfl

theorem State.memRead_memWrite (s : State) (a n : Nat) (v : BitVec (8 * n)) :
    (s.memWrite a n v).memRead a n = v :=
  s.mem.readValue_writeValue s.params.byteOrder a n v

/-! ### What an instruction leaves of memory -/

/-- An instruction that moved its bytes at a granted address changed no byte of the program text and none that is
missing (R58, R62). -/
theorem effectOf_mem_read_of_protected {i : Instr} {s : State} {a b : Nat}
    (hg : AccessGranted s (formatOf i) (accessOf i) (bytesMoved i) (addressOf i s) a)
    (hb : s.TextByte b ∨ existsAt s.ram b = false) : (effectOf i s a).mem.read b = s.mem.read b := by
  obtain ⟨-, -, -, -, -, -, hexist, htext⟩ := hg
  obtain ⟨-, hm⟩ | ⟨hstore, bs, hlen, hm⟩ := effectOf_mem i s a
  · rw [hm]
  rw [hm]
  refine Memory.read_writeBytes_of_outside bs s.mem a b ?_
  by_contra hin
  obtain ⟨k, hk, rfl⟩ : ∃ k, k < bytesMoved i ∧ b = a + k := ⟨b - a, by omega, by omega⟩
  obtain ht | he := hb
  · have := (s.touchesText_iff a (bytesMoved i) (by omega)).2 ⟨k, hk, ht⟩
    simp [htext hstore] at this
  · have := (allExist_iff s.ram a (bytesMoved i)).1 hexist k hk
    simp [he] at this

/-- The bytes that the instruction at pc is fetched from are bytes of the program text (R42, R62). -/
theorem State.textByte_fetchAddress_pc {s : State} (hl : badLaunch s = false) (hp : s.pcInText = true) {k : Nat}
    (hk : k < 4) : s.TextByte (fetchAddress s.params s.pc + k) := by
  obtain ⟨hpc, hbase, -⟩ := (badLaunch_eq_false s).1 hl
  obtain ⟨i, hi, he⟩ := State.fetchAddress_pc_eq hp hpc hbase
  exact .inr ⟨i, hi, by omega, by omega⟩

end Sys2Proof.Machine

namespace Sys2Proof.Proofs

open Sys2Proof.Machine

/-- Settles O55: the one effect of a step that reaches memory is a store's, and a store is granted only where each
byte exists and lies outside the text. -/
theorem programTextAndMissingMemoryNeverWritten : Obligations.ProgramTextAndMissingMemoryNeverWritten := by
  unfold Obligations.ProgramTextAndMissingMemoryNeverWritten
  intro s t hstep
  obtain ⟨i, hfetch, hexec, -⟩ := step_next_cases hstep
  obtain ⟨hlaunch, hpc, -⟩ := fetch_ok_cases hfetch
  obtain ⟨-, -, a, hgrant, rfl⟩ := exec_next_cases hexec
  obtain ⟨-, -, hram, hbase, hlen, hparams⟩ := effectOf_fixed i s a
  have hread : ∀ b, s.TextByte b ∨ existsAt s.ram b = false → (effectOf i s a).mem.read b = s.mem.read b :=
    fun b hb => effectOf_mem_read_of_protected hgrant hb
  refine ⟨hbase, hlen, hram, hparams, hread, fun c hc => Memory.readBytes_congr c 4 fun k hk => hread _ (.inl ?_)⟩
  rw [← (fetchAddress_eq_iff s.params s.pc c).2 hc]
  exact State.textByte_fetchAddress_pc hlaunch hpc hk

end Sys2Proof.Proofs
end

section
/-! PROOFS. The family of spec/20_memory.md, part 2: what raises Address Error, and every exception with its cause. -/

namespace Sys2Proof.Machine

/-! ### Address Error is raised (R47, R58) -/

theorem resolve_eq_addressError {s : State} {r : Request}
    (h : ¬ Aligned s r.format r.access r.size r.vAddr ∨ addrAllowed s.params r.vAddr r.size r.access = false) :
    resolve s r = .error (raise (.addressError r.access r.vAddr) s) := by
  rw [← misaligned_eq_false, Bool.not_eq_false] at h
  unfold resolve
  by_cases hm : misaligned s.params r = true
  · rw [if_pos hm]
  · rw [if_neg hm, if_pos (h.resolve_left hm)]

/-- Where the access stops and nothing did before it, the instruction answers that stop. -/
theorem perform_eq_stop {s : State} {early : Option Stop} {r : Request} {p : Stop} (effect : Nat → State)
    (he : early = none) (hr : resolve s r = .error p) : perform s early r effect = p.outcome := by
  simp [perform, he, hr]

/-- Where no earlier check stops it, an instruction that is misaligned or not allowed raises Address Error with its
own direction and address. -/
theorem exec_eq_addressError {i : Instr} {s : State} (hc : CoprocessorsOn s (touchesFpr i))
    (hd : sameDestinations i = false)
    (h : ¬ Aligned s (formatOf i) (accessOf i) (bytesMoved i) (addressOf i s)
      ∨ addrAllowed s.params (addressOf i s) (bytesMoved i) (accessOf i) = false) :
    exec i s = .fault (.raised (.addressError (accessOf i) (addressOf i s)) s.pc) := by
  have he : earlyStop i s = none := (earlyStop_eq_none i s).2 ⟨hc, hd⟩
  have hr : resolve s (requestOf i s) = .error (raise (.addressError (accessOf i) (addressOf i s)) s) :=
    resolve_eq_addressError h
  rw [exec_eq_perform, perform_eq_stop (effectOf i s) he hr]
  rfl

/-! ### Each exception's cause (R163) -/

/-- The exceptions of steps 6 and 7 of R163 are Watch and Bus Error. -/
theorem admitStop_raised_cases {s : State} {r : Request} {a : Nat} {e : Exc} {pc : VAddr}
    (h : admitStop s r a = some (.fault (.raised e pc))) :
    pc = s.pc ∧ r.format = .indexed
      ∧ (e = .watch r.access r.vAddr ∧ watchHit s.params r.vAddr r.size r.access = true
        ∨ e = .busError a r.vAddr ∧ r.access = .store ∧ busFault s.params a r.size = true) := by
  unfold admitStop raise at h
  split at h
  · next hw => cases h; exact ⟨rfl, hw.1, .inl ⟨rfl, hw.2⟩⟩
  split at h
  · next hb => cases h; exact ⟨rfl, hb.1, .inr ⟨rfl, hb.2⟩⟩
  split at h
  · cases h
  split at h
  · cases h
  split at h <;> cases h

/-- Every exception of an access, with its cause. -/
theorem resolve_raised_cases {s : State} {r : Request} {e : Exc} {pc : VAddr}
    (h : resolve s r = .error (.fault (.raised e pc))) :
    pc = s.pc ∧
      (e = .addressError r.access r.vAddr
          ∧ (¬ Aligned s r.format r.access r.size r.vAddr ∨ addrAllowed s.params r.vAddr r.size r.access = false)
        ∨ e = .tlbRefill r.access r.vAddr ∧ addressTranslation s.params r.vAddr r.access = .tlbRefill
        ∨ e = .tlbInvalid r.access r.vAddr ∧ addressTranslation s.params r.vAddr r.access = .tlbInvalid
        ∨ e = .tlbModified r.vAddr ∧ addressTranslation s.params r.vAddr r.access = .tlbModified
        ∨ ∃ a, translatesTo s.params r.vAddr r.access a = true ∧ r.format = .indexed
          ∧ (e = .watch r.access r.vAddr ∧ watchHit s.params r.vAddr r.size r.access = true
            ∨ e = .busError a r.vAddr ∧ r.access = .store ∧ busFault s.params a r.size = true)) := by
  rw [← misaligned_eq_false, Bool.not_eq_false]
  unfold resolve raise at h
  split at h
  · next hm => cases h; exact ⟨rfl, .inl ⟨rfl, .inl hm⟩⟩
  split at h
  · next hd => cases h; exact ⟨rfl, .inl ⟨rfl, .inr hd⟩⟩
  split at h
  · next ht => cases h; exact ⟨rfl, .inr (.inl ⟨rfl, ht⟩)⟩
  · next ht => cases h; exact ⟨rfl, .inr (.inr (.inl ⟨rfl, ht⟩))⟩
  · next ht => cases h; exact ⟨rfl, .inr (.inr (.inr (.inl ⟨rfl, ht⟩)))⟩
  · next a cca ht =>
    split at h
    · next p hp =>
      cases h
      obtain ⟨hpc, hx⟩ := admitStop_raised_cases hp
      exact ⟨hpc, .inr (.inr (.inr (.inr ⟨a, by simp [translatesTo, ht], hx⟩)))⟩
    · cases h

/-- The one exception known before the address is Coprocessor Unusable. -/
theorem earlyStop_raised_cases {i : Instr} {s : State} {e : Exc} {pc : VAddr}
    (h : earlyStop i s = some (.fault (.raised e pc))) :
    pc = s.pc ∧ (e = .coprocessorUnusable 2 ∨ e = .coprocessorUnusable 1) := by
  unfold earlyStop enableStop raise at h
  split at h
  · cases hf : formatOf i with
    | quad => rw [hf] at h; cases h; exact ⟨rfl, .inl rfl⟩
    | indexed => rw [hf] at h; cases h
  split at h
  · cases h; exact ⟨rfl, .inr rfl⟩
  · rw [Option.none_or] at h
    split at h <;> cases h

theorem Stop.outcome_eq_fault {p : Stop} {r : Fault} (h : p.outcome = .fault r) : p = .fault r := by
  cases p with
  | fault q => rw [Stop.outcome_fault] at h; cases h; rfl
  | refused q => cases h

/-- An exception of an instruction is Coprocessor Unusable, or one of its access. -/
theorem exec_raised_cases {i : Instr} {s : State} {e : Exc} {pc : VAddr} (h : exec i s = .fault (.raised e pc)) :
    (pc = s.pc ∧ (e = .coprocessorUnusable 2 ∨ e = .coprocessorUnusable 1))
      ∨ resolve s (requestOf i s) = .error (.fault (.raised e pc)) := by
  rw [exec_eq_perform] at h
  obtain ⟨p, hp, ho⟩ | ⟨-, p, hp, ho⟩ := perform_stop_cases h (by simp)
  · rw [Stop.outcome_eq_fault ho.symm] at hp
    exact .inl (earlyStop_raised_cases hp)
  · rw [Stop.outcome_eq_fault ho.symm] at hp
    exact .inr hp

/-- An Address Error has one of two causes: the alignment test, or `AddrAllowed`. -/
theorem exec_addressError_cause {i : Instr} {s : State} {acc : Access} {v pc : VAddr}
    (h : exec i s = .fault (.raised (.addressError acc v) pc)) :
    ¬ Aligned s (formatOf i) (accessOf i) (bytesMoved i) (addressOf i s)
      ∨ addrAllowed s.params (addressOf i s) (bytesMoved i) (accessOf i) = false := by
  obtain ⟨-, he | he⟩ | hr := exec_raised_cases h
  · cases he
  · cases he
  obtain ⟨-, ⟨-, hcause⟩ | ⟨he, -⟩ | ⟨he, -⟩ | ⟨he, -⟩ | ⟨a, -, -, ⟨he, -⟩ | ⟨he, -⟩⟩⟩ := resolve_raised_cases hr
  · exact hcause
  all_goals cases he

end Sys2Proof.Machine

namespace Sys2Proof.Proofs

open Sys2Proof.Machine

/-- Settles O32: the alignment test answers before `AddrAllowed` is asked, and an access that passes it has
`AddrAllowed` as the one cause of Address Error left. -/
theorem alignmentTableDecidesAddressErrors : Obligations.AlignmentTableDecidesAddressErrors := by
  unfold Obligations.AlignmentTableDecidesAddressErrors
  refine fun i s => ⟨fun hc hd htested hmis => ⟨_, _, exec_eq_addressError hc hd (.inl fun hal => ?_)⟩,
    fun acc v pc hexec hpass => ?_⟩
  · exact hmis (hal htested)
  · have hal : Aligned s (formatOf i) (accessOf i) (bytesMoved i) (addressOf i s) := by
      intro htested
      obtain hmod | ⟨hform, hun⟩ := hpass
      · exact hmod
      obtain ⟨hf, ha⟩ | hun' := htested
      · simp [hf, ha] at hform
      · simp [hun] at hun'
    exact (addrAllowed_eq_false ..).1 ((exec_addressError_cause hexec).resolve_left (not_not_intro hal))

/-- Settles O58: a unit's Address Error makes `AddrAllowed` false, which every access is asked before its translation,
and a load's translation never ends in TLB Modified. -/
theorem translateAddressErrorIsRaised : Obligations.TranslateAddressErrorIsRaised := by
  unfold Obligations.TranslateAddressErrorIsRaised
  refine fun i s u => ⟨fun hc hd hfind hu => ?_, fun _ => ?_⟩
  · exact exec_eq_addressError hc hd (.inr ((addrAllowed_eq_false ..).2 (.inr ⟨u, hfind, hu⟩)))
  · cases ht : addressTranslation s.params (addressOf i s) .load with
    | mapped a cca => exact .inr (.inr ⟨a, cca, rfl⟩)
    | tlbRefill => exact .inl rfl
    | tlbInvalid => exact .inr (.inl rfl)
    | tlbModified => exact absurd ht (addressTranslation_load_ne_tlbModified s.params _)

end Sys2Proof.Proofs
end

section
/-! PROOFS. The family of spec/20_memory.md, part 3: narrow loads and stores (R52), and the instruction a step runs
(R195). -/

namespace Sys2Proof.Machine

/-- A completed instruction did its effect at the address `Translate` gives. -/
theorem exec_next_at {i : Instr} {s t : State} {a : Nat} (h : exec i s = .next t)
    (ha : translatesTo s.params (addressOf i s) (accessOf i) a = true) : t = (effectOf i s a).advance := by
  obtain ⟨-, -, b, hgrant, rfl⟩ := exec_next_cases h
  obtain ⟨-, -, hb, -⟩ := hgrant
  rw [translatesTo_unique ha hb]

/-- A value sign-extended to a doubleword is its own low bits, and each higher bit is its top bit (R52). -/
theorem signExtend_low_and_high {n : Nat} (h64 : n ≤ 64) (v : BitVec n) :
    (v.signExtend 64).extractLsb' 0 n = v
      ∧ ∀ j, n ≤ j → j < 64 → (v.signExtend 64).getLsbD j = v.getLsbD (n - 1) := by
  refine ⟨BitVec.eq_of_getLsbD_eq fun k hk => ?_, fun j hlo hhi => ?_⟩
  · simp [BitVec.getElem_signExtend, hk, Nat.lt_of_lt_of_le hk h64]
  · simp [BitVec.getElem_signExtend, hhi, Nat.not_lt.2 hlo, BitVec.msb_eq_getLsbD_last]

/-- What a completed load to a general register other than 0 leaves in it. -/
theorem readGpr_of_next {i : Instr} {s t : State} {a : Nat} {r : RegNum} {v : Dword} (h : exec i s = .next t)
    (ha : translatesTo s.params (addressOf i s) (accessOf i) a = true) (he : effectOf i s a = s.writeGpr r v)
    (hr : r ≠ 0#5) : t.readGpr r = v := by
  rw [exec_next_at h ha, he, State.readGpr_advance, State.readGpr_writeGpr, if_pos ⟨rfl, hr⟩]

/-- What a completed load to a floating-point register leaves in it. -/
theorem readFpr_of_next {i : Instr} {s t : State} {a : Nat} {r : RegNum} {v : Dword} (h : exec i s = .next t)
    (ha : translatesTo s.params (addressOf i s) (accessOf i) a = true) (he : effectOf i s a = s.writeFpr r v) :
    t.readFpr r = v := by
  rw [exec_next_at h ha, he, State.readFpr_advance, State.readFpr_writeFpr, if_pos rfl]

/-- What a completed store of one access leaves in memory. -/
theorem memRead_of_next {i : Instr} {s t : State} {a n : Nat} {v : BitVec (8 * n)} (h : exec i s = .next t)
    (ha : translatesTo s.params (addressOf i s) (accessOf i) a = true) (he : effectOf i s a = s.memWrite a n v) :
    t.memRead a n = v := by
  rw [exec_next_at h ha, he, State.memRead_advance, State.memRead_memWrite]

/-- The start of a step whose bytes decode (R195). -/
theorem fetch_eq_ok {s : State} {i : Instr} {rest : List Byte} (hl : badLaunch s = false) (hp : s.pcInText = true)
    (hd : decode s.params.quadLayout s.params.byteOrder s.fetchBytes = .ok (i, rest)) : fetch s = .ok i := by
  have hne : s.pc.toNat ≠ s.textEnd := Nat.ne_of_lt (s.pcInText_iff.1 hp).2
  simp [fetch, hl, hp, hd, hne]

theorem guardPcWrap_of_not_next {s : State} {o : Outcome} (h : ∀ t, o ≠ .next t) : guardPcWrap s o = o := by
  cases o with
  | next t => exact absurd rfl (h t)
  | fault r => rfl
  | refused r => rfl

theorem guardPcWrap_of_lt {s : State} (h : s.pc.toNat + 4 < 2 ^ 64) (o : Outcome) : guardPcWrap s o = o := by
  cases o with
  | next t => exact if_pos h
  | fault r => rfl
  | refused r => rfl

theorem guardPcWrap_next_of_le {s : State} (h : 2 ^ 64 ≤ s.pc.toNat + 4) (t : State) :
    guardPcWrap s (.next t) = .refused .pcWraps :=
  if_neg (Nat.not_lt.2 h)

end Sys2Proof.Machine

namespace Sys2Proof.Proofs

open Sys2Proof.Machine

/-- Settles O42: a completed narrow load holds the sign extension of what it read, and a completed narrow store reads
back as the low bits it wrote. -/
theorem narrowLoadsSignExtendNarrowStoresTruncate : Obligations.NarrowLoadsSignExtendNarrowStoresTruncate := by
  unfold Obligations.NarrowLoadsSignExtendNarrowStoresTruncate
  refine fun x s t a => ⟨fun h ha hr => ?_, fun h ha hr => ?_, fun h ha hr => ?_, fun h ha => ?_, fun h ha => ?_,
    fun h ha => ?_, fun h ha => ?_, fun h ha => ?_⟩
  · rw [readGpr_of_next h ha rfl hr]
    exact signExtend_low_and_high (by decide) (s.memRead a 1)
  · rw [readGpr_of_next h ha rfl hr]
    exact signExtend_low_and_high (by decide) (s.memRead a 2)
  · rw [readGpr_of_next h ha rfl hr]
    exact signExtend_low_and_high (by decide) (s.memRead a 4)
  · rw [readFpr_of_next h ha rfl]
    exact signExtend_low_and_high (by decide) (s.memRead a 4)
  · exact memRead_of_next h ha rfl
  · exact memRead_of_next h ha rfl
  · exact memRead_of_next h ha rfl
  · exact memRead_of_next h ha rfl

/-- Settles O50: pc stands before the text's end, so the fetch gets as far as decoding, and the guard against a wrap
passes every outcome but a next state at the last instruction address. -/
theorem stepRunsTheDecodedInstruction : Obligations.StepRunsTheDecodedInstruction := by
  unfold Obligations.StepRunsTheDecodedInstruction
  intro s i rest a hl hp ha hd
  rw [← (fetchAddress_eq_iff s.params s.pc a).2 ha] at hd
  have hstep : step s = guardPcWrap s (exec i s) := by rw [step, fetch_eq_ok hl hp hd]
  rw [hstep]
  exact ⟨fun hlt => guardPcWrap_of_lt hlt _, fun hle t ht => ht ▸ guardPcWrap_next_of_le hle t, guardPcWrap_of_not_next⟩

end Sys2Proof.Proofs
end

section
/-! PROOFS. The family of spec/20_memory.md, part 4: no outcome depends on the CCA that `Translate` returns (R44). -/

namespace Sys2Proof.Machine

/-! ### The tables with other CCAs -/

theorem State.recolour_units (g : Nat → Nat) (s : State) :
    (s.recolour g).params.units = s.params.units.map (recolourUnit g) := rfl

/-- The answer with another CCA, where it has one. -/
def Translation.recolour (g : Nat → Nat) : Translation → Translation
  | .mapped a cca => .mapped a (g cca)
  | .tlbRefill    => .tlbRefill
  | .tlbInvalid   => .tlbInvalid
  | .tlbModified  => .tlbModified

theorem unitTranslation_recolourUnit (g : Nat → Nat) (u : TransUnit) (v : VAddr) :
    unitTranslation (recolourUnit g u) v = (unitTranslation u v).map (Translation.recolour g) := by
  obtain ⟨lo, hi, access, answer⟩ := u
  cases answer <;> rfl

@[simp] theorem unitCovers_recolourUnit (g : Nat → Nat) (u : TransUnit) (v : VAddr) (acc : Access) :
    unitCovers (recolourUnit g u) v acc = unitCovers u v acc := by
  obtain ⟨lo, hi, access, answer⟩ := u
  cases answer <;> rfl

@[simp] theorem recolourUnit_answer_eq_addressError (g : Nat → Nat) (u : TransUnit) :
    ((recolourUnit g u).answer == .addressError) = (u.answer == .addressError) := by
  obtain ⟨lo, hi, access, answer⟩ := u
  cases answer <;> rfl

/-! ### The platform's functions -/

@[simp] theorem answersAddressError_recolour (g : Nat → Nat) (s : State) (v : VAddr) (acc : Access) :
    answersAddressError (s.recolour g).params v acc = answersAddressError s.params v acc := by
  simp [answersAddressError, State.recolour_units, List.find?_map, Option.any_map]

@[simp] theorem unitIndex_recolour (g : Nat → Nat) (s : State) (v : VAddr) (acc : Access) :
    unitIndex (s.recolour g).params v acc = unitIndex s.params v acc := by
  simp [unitIndex, State.recolour_units, List.findIdx?_map, Function.comp_def]

@[simp] theorem crossesUnit_recolour (g : Nat → Nat) (s : State) (v : VAddr) (n : Nat) (acc : Access) :
    crossesUnit (s.recolour g).params v n acc = crossesUnit s.params v n acc := by
  simp [crossesUnit]

@[simp] theorem addrAllowed_recolour (g : Nat → Nat) (s : State) (v : VAddr) (n : Nat) (acc : Access) :
    addrAllowed (s.recolour g).params v n acc = addrAllowed s.params v n acc := by
  simp only [addrAllowed, answersAddressError_recolour]
  rfl

/-- The first unit over the address answers the same but for the CCA. -/
theorem findSome?_unitTranslation_recolourUnit (g : Nat → Nat) (us : List TransUnit) (v : VAddr) (acc : Access) :
    ((us.map (recolourUnit g)).findSome? fun u => if unitCovers u v acc = true then unitTranslation u v else none)
      = (us.findSome? fun u => if unitCovers u v acc = true then unitTranslation u v else none).map
        (Translation.recolour g) := by
  rw [List.findSome?_map, List.map_findSome?]
  congr 1
  funext u
  simp only [Function.comp_apply, unitCovers_recolourUnit, unitTranslation_recolourUnit]
  split <;> rfl

/-- The translation with other CCAs in the units: the same, or the same physical address with another CCA. -/
theorem addressTranslation_recolour (g : Nat → Nat) (s : State) (v : VAddr) (acc : Access) :
    addressTranslation (s.recolour g).params v acc = addressTranslation s.params v acc
      ∨ ∃ a cca, addressTranslation s.params v acc = .mapped a cca
        ∧ addressTranslation (s.recolour g).params v acc = .mapped a (g cca) := by
  rw [addressTranslation, addressTranslation, State.recolour_units, findSome?_unitTranslation_recolourUnit]
  cases s.params.units.findSome? fun u => if unitCovers u v acc = true then unitTranslation u v else none with
  | none => exact .inl rfl
  | some answer =>
    cases answer with
    | mapped a cca => exact .inr ⟨a, cca, rfl, rfl⟩
    | tlbRefill => exact .inl rfl
    | tlbInvalid => exact .inl rfl
    | tlbModified => exact .inl rfl

@[simp] theorem fetchAddress_recolour (g : Nat → Nat) (s : State) (v : VAddr) :
    fetchAddress (s.recolour g).params v = fetchAddress s.params v := by
  obtain h | ⟨a, cca, h, h'⟩ := addressTranslation_recolour g s v .load
  · simp only [fetchAddress, answersAddressError_recolour, h]
  · simp only [fetchAddress, answersAddressError_recolour, h, h']

/-! ### An instruction -/

@[simp] theorem State.textWordAddress_recolour (g : Nat → Nat) (s : State) (i : Nat) :
    (s.recolour g).textWordAddress i = s.textWordAddress i :=
  fetchAddress_recolour g s _

theorem State.touchesText_recolour (g : Nat → Nat) (s : State) (a n : Nat) :
    (s.recolour g).touchesText a n = s.touchesText a n := by
  simp only [State.touchesText, State.textWordAddress_recolour]
  rfl

theorem admitStop_recolour (g : Nat → Nat) (s : State) (r : Request) (a : Nat) :
    admitStop (s.recolour g) r a = admitStop s r a := by
  simp only [admitStop, crossesUnit_recolour, State.touchesText_recolour]
  rfl

/-- The access meets the same stop, or goes through at the same physical address. -/
theorem resolve_recolour (g : Nat → Nat) (s : State) (r : Request) : resolve (s.recolour g) r = resolve s r := by
  obtain h | ⟨a, cca, h, h'⟩ := addressTranslation_recolour g s r.vAddr r.access
  · simp only [resolve, addrAllowed_recolour, h, admitStop_recolour]
    rfl
  · simp only [resolve, addrAllowed_recolour, h, h', admitStop_recolour]
    rfl

theorem effectOf_recolour (g : Nat → Nat) (i : Instr) (s : State) (a : Nat) :
    effectOf i (s.recolour g) a = (effectOf i s a).recolour g := by
  cases i <;> rfl

theorem mapNext_outcome (f : State → State) (p : Stop) : mapNext f p.outcome = p.outcome := by
  cases p <;> rfl

theorem exec_recolour (g : Nat → Nat) (i : Instr) (s : State) :
    exec i (s.recolour g) = mapNext (State.recolour g) (exec i s) := by
  have hearly : earlyStop i (s.recolour g) = earlyStop i s := rfl
  have hreq : requestOf i (s.recolour g) = requestOf i s := by cases i <;> rfl
  simp only [exec_eq_perform, perform, hearly, hreq, resolve_recolour]
  cases earlyStop i s with
  | some p => exact (mapNext_outcome _ p).symm
  | none =>
    cases resolve s (requestOf i s) with
    | error p => exact (mapNext_outcome _ p).symm
    | ok a =>
      simp only [effectOf_recolour]
      rfl

/-! ### A step -/

theorem badLaunch_recolour (g : Nat → Nat) (s : State) : badLaunch (s.recolour g) = badLaunch s := by
  have htext : (s.recolour g).textExists = s.textExists := by
    simp only [State.textExists, State.textWordAddress_recolour]
    rfl
  rw [badLaunch, htext]
  rfl

theorem fetch_recolour (g : Nat → Nat) (s : State) : fetch (s.recolour g) = fetch s := by
  have hbytes : (s.recolour g).fetchBytes = s.fetchBytes :=
    congrArg (s.mem.readBytes · 4) (fetchAddress_recolour g s s.pc)
  rw [fetch, badLaunch_recolour, hbytes]
  rfl

theorem guardPcWrap_recolour (g : Nat → Nat) (s : State) (o : Outcome) :
    guardPcWrap (s.recolour g) (mapNext (State.recolour g) o) = mapNext (State.recolour g) (guardPcWrap s o) := by
  cases o with
  | next t =>
    by_cases h : s.pc.toNat + 4 < 2 ^ 64
    · rw [guardPcWrap_of_lt h, guardPcWrap_of_lt (s := s.recolour g) h]
    · rw [guardPcWrap_next_of_le (Nat.not_lt.1 h)]
      exact guardPcWrap_next_of_le (s := s.recolour g) (Nat.not_lt.1 h) _
  | fault r => rfl
  | refused r => rfl

theorem step_recolour (g : Nat → Nat) (s : State) :
    step (s.recolour g) = mapNext (State.recolour g) (step s) := by
  simp only [step, fetch_recolour, exec_recolour]
  cases fetch s with
  | error p => exact (mapNext_outcome _ p).symm
  | ok i => exact guardPcWrap_recolour g s (exec i s)

end Sys2Proof.Machine

namespace Sys2Proof.Proofs

open Sys2Proof.Machine

/-- Settles O43: the one function that answers a CCA is the translation, and what is made of it is the physical
address. -/
theorem ccaIsNeverRead : Obligations.CcaIsNeverRead := by
  unfold Obligations.CcaIsNeverRead
  exact fun g i s => ⟨exec_recolour g i s, step_recolour g s⟩

end Sys2Proof.Proofs
end

section
/-! PROOFS. The family of spec/30_encoding.md, part 1: the encoder and the decoder invert each other, and the two layouts of
format Q accept disjoint words. -/

namespace Sys2Proof

open Sys2Proof.Machine

/-! ### The major opcode selects the decoding of a format (R79) -/

theorem decodeWord_quadLoad {w : Word} (h : w.extractLsb' 26 6 = opQuadLoad) (l : QuadLayout) :
    decodeWord l w = decodeQuad l true w := by
  simp [decodeWord, h]

theorem decodeWord_quadStore {w : Word} (h : w.extractLsb' 26 6 = opQuadStore) (l : QuadLayout) :
    decodeWord l w = decodeQuad l false w := by
  simp [decodeWord, h, opQuadLoad, opQuadStore]

theorem decodeWord_indexedLoad {w : Word} (h : w.extractLsb' 26 6 = opIndexedLoad) (l : QuadLayout) :
    decodeWord l w = decodeIndexedLoad w := by
  simp [decodeWord, h, opQuadLoad, opQuadStore, opIndexedLoad]

theorem decodeWord_indexedStore {w : Word} (h : w.extractLsb' 26 6 = opIndexedStore) (l : QuadLayout) :
    decodeWord l w = decodeIndexedStore w := by
  simp [decodeWord, h, opQuadLoad, opQuadStore, opIndexedLoad, opIndexedStore]

/-- A word that decodes has one of the four major opcodes and decodes as its format does. -/
theorem decodeWord_ok_cases {l : QuadLayout} {w : Word} {i : Instr} (h : decodeWord l w = .ok i) :
    (w.extractLsb' 26 6 = opQuadLoad ∧ decodeQuad l true w = .ok i)
      ∨ (w.extractLsb' 26 6 = opQuadStore ∧ decodeQuad l false w = .ok i)
      ∨ (w.extractLsb' 26 6 = opIndexedLoad ∧ decodeIndexedLoad w = .ok i)
      ∨ (w.extractLsb' 26 6 = opIndexedStore ∧ decodeIndexedStore w = .ok i) := by
  simp only [decodeWord] at h
  split at h
  · next hm => exact .inl ⟨hm, h⟩
  split at h
  · next hm => exact .inr (.inl ⟨hm, h⟩)
  split at h
  · next hm => exact .inr (.inr (.inl ⟨hm, h⟩))
  split at h
  · next hm => exact .inr (.inr (.inr ⟨hm, h⟩))
  · cases h

/-! ### Which words and which offsets a layout of format Q accepts (R73, R80, R81) -/

theorem quadReserved_figure_eq_none (w : Word) :
    quadReserved .sourceFigure w = none ↔ w.extractLsb' 6 1 = 1#1 ∧ w.extractLsb' 5 1 = 0#1 := by
  obtain h6 | h6 := BitVec.eq_zero_or_eq_one (w.extractLsb' 6 1) <;>
    obtain h5 | h5 := BitVec.eq_zero_or_eq_one (w.extractLsb' 5 1) <;> simp [quadReserved, h6, h5]

theorem quadReserved_toolchain_eq_none (w : Word) :
    quadReserved .toolchain w = none ↔ w.extractLsb' 5 1 = 1#1 := by
  obtain h5 | h5 := BitVec.eq_zero_or_eq_one (w.extractLsb' 5 1) <;> simp [quadReserved, h5]

/-- A word that one layout accepts the other reserves: bit 5 is clear in the figure's words and set in the other's. -/
theorem quadReserved_ne_none_of_other_layout {l k : QuadLayout} {w : Word} (hne : l ≠ k)
    (h : quadReserved l w = none) : quadReserved k w ≠ none := by
  cases l <;> cases k
  · exact absurd rfl hne
  · simp [quadReserved_toolchain_eq_none, ((quadReserved_figure_eq_none w).1 h).2]
  · simp [quadReserved_figure_eq_none, (quadReserved_toolchain_eq_none w).1 h]
  · exact absurd rfl hne

/-- An instruction is well formed when it is an indexed form or its quad offset fits. -/
theorem wellFormed_eq (l : QuadLayout) (i : Instr) : i.wellFormed l = (quadOperands i).all (·.fits l) := by
  cases i <;> rfl

theorem formatOf_eq (i : Instr) : formatOf i = if (quadOperands i).isSome then .quad else .indexed := by
  cases i <;> rfl

theorem quadFields_fits (l : QuadLayout) (w : Word) : (quadFields l w).fits l = true := by
  cases l with
  | sourceFigure => simp [QFields.fits, quadFields, quadOffset, setWidth_signExtend_offset]
  | toolchain => rfl

/-! ### Decoding what the encoder writes -/

theorem quadFields_quadWord {l : QuadLayout} {q : QFields} (h : q.fits l = true) (m : BitVec 6) (c : BitVec 1) :
    quadFields l (quadWord l m c q) = q := by
  have ho : quadOffset l (quadWord l m c q) = q.offset := by
    cases l with
    | sourceFigure => rw [quadOffset, quadWord_figure_offset]; exact (eq_of_beq h).symm
    | toolchain => exact quadWord_toolchain_offset m c q
  rw [quadFields, quadWord_rs, quadWord_rt0, quadWord_rt1, ho]

theorem decodeWord_quadWord_load {l : QuadLayout} {q : QFields} (h : q.fits l = true) (c : BitVec 1) :
    decodeWord l (quadWord l opQuadLoad c q) = .ok (if c = 1#1 then .gslqc1 q else .gslq q) := by
  rw [decodeWord_quadLoad (quadWord_major ..), decodeQuad, quadReserved_quadWord, quadWord_c1, quadFields_quadWord h]
  obtain rfl | rfl := BitVec.eq_zero_or_eq_one c <;> rfl

theorem decodeWord_quadWord_store {l : QuadLayout} {q : QFields} (h : q.fits l = true) (c : BitVec 1) :
    decodeWord l (quadWord l opQuadStore c q) = .ok (if c = 1#1 then .gssqc1 q else .gssq q) := by
  rw [decodeWord_quadStore (quadWord_major ..), decodeQuad, quadReserved_quadWord, quadWord_c1, quadFields_quadWord h]
  obtain rfl | rfl := BitVec.eq_zero_or_eq_one c <;> rfl

/-! ### Encoding what was decoded -/

/-- A format Q word that is not reserved is rebuilt from its fields (R71, R73). -/
theorem quadWord_quadFields {l : QuadLayout} {w : Word} (h : quadReserved l w = none) :
    quadWord l (w.extractLsb' 26 6) (w.extractLsb' 15 1) (quadFields l w) = w := by
  cases l with
  | sourceFigure =>
    obtain ⟨h6, h5⟩ := (quadReserved_figure_eq_none w).1 h
    exact quadWord_figure_quadFields w h6 h5
  | toolchain => exact quadWord_toolchain_quadFields w ((quadReserved_toolchain_eq_none w).1 h)

theorem encode_of_decodeQuad {l : QuadLayout} {b : Bool} {w : Word} {i : Instr} (h : decodeQuad l b w = .ok i) :
    encode l i = quadWord l (if b then opQuadLoad else opQuadStore) (w.extractLsb' 15 1) (quadFields l w) := by
  rw [decodeQuad, (decodeQuad_ok_cases h).1] at h
  obtain hc | hc := BitVec.eq_zero_or_eq_one (w.extractLsb' 15 1) <;> rw [hc] at h ⊢ <;> cases b <;> cases h <;> rfl

/-- What a format X word that decodes to a load says: the instruction has its fields and is encoded with its OP0
(R78). -/
theorem decodeIndexedLoad_ok_cases {w : Word} {i : Instr} (h : decodeIndexedLoad w = .ok i) :
    indexedOperands i = some (indexedFields w)
      ∧ ∀ l, encode l i = indexedWord opIndexedLoad (w.extractLsb' 0 3) (indexedFields w) := by
  simp only [decodeIndexedLoad] at h
  repeat' split at h
  all_goals cases h
  all_goals exact ⟨rfl, fun l => by simp only [encode, *]⟩

/-- What a format X word that decodes to a store says: the instruction has its fields and is encoded with its OP0
(R78). -/
theorem decodeIndexedStore_ok_cases {w : Word} {i : Instr} (h : decodeIndexedStore w = .ok i) :
    indexedOperands i = some (indexedFields w)
      ∧ ∀ l, encode l i = indexedWord opIndexedStore (w.extractLsb' 0 3) (indexedFields w) := by
  simp only [decodeIndexedStore] at h
  repeat' split at h
  all_goals cases h
  all_goals exact ⟨rfl, fun l => by simp only [encode, *]⟩

theorem wellFormed_of_decodeWord {l : QuadLayout} {w : Word} {i : Instr} (h : decodeWord l w = .ok i) :
    i.wellFormed l = true := by
  rw [wellFormed_eq]
  cases hq : quadOperands i with
  | none => rfl
  | some q =>
    obtain ⟨-, rfl⟩ := decodeWord_quad_cases h hq
    exact quadFields_fits l w

theorem encode_of_decodeWord {l : QuadLayout} {w : Word} {i : Instr} (h : decodeWord l w = .ok i) : encode l i = w := by
  obtain ⟨hm, hd⟩ | ⟨hm, hd⟩ | ⟨hm, hd⟩ | ⟨hm, hd⟩ := decodeWord_ok_cases h
  · rw [encode_of_decodeQuad hd, if_pos rfl, ← hm, quadWord_quadFields (decodeQuad_ok_cases hd).1]
  · rw [encode_of_decodeQuad hd, if_neg Bool.false_ne_true, ← hm, quadWord_quadFields (decodeQuad_ok_cases hd).1]
  · rw [(decodeIndexedLoad_ok_cases hd).2, ← hm, indexedWord_indexedFields]
  · rw [(decodeIndexedStore_ok_cases hd).2, ← hm, indexedWord_indexedFields]

/-! ### The other layout -/

theorem decodeQuad_other_layout {l k : QuadLayout} {b : Bool} {w : Word} {i : Instr} (hne : l ≠ k)
    (h : decodeQuad l b w = .ok i) : ∃ e, decodeQuad k b w = .error e := by
  obtain ⟨e, he⟩ := Option.ne_none_iff_exists'.1 (quadReserved_ne_none_of_other_layout hne (decodeQuad_ok_cases h).1)
  exact ⟨e, by rw [decodeQuad, he]⟩

theorem formatOf_of_decodeQuad {l : QuadLayout} {b : Bool} {w : Word} {i : Instr} (h : decodeQuad l b w = .ok i) :
    formatOf i = .quad := by
  rw [formatOf_eq, (decodeQuad_ok_cases h).2]
  rfl

theorem formatOf_of_decodeIndexed {w : Word} {i : Instr}
    (h : decodeIndexedLoad w = .ok i ∨ decodeIndexedStore w = .ok i) : formatOf i = .indexed := by
  rw [formatOf_eq, decodeIndexed_quadOperands h]
  rfl

end Sys2Proof

namespace Sys2Proof.Proofs

open Sys2Proof.Machine

/-- Settles O1: the major opcode leads to the format that wrote the word, and each field is read back from its place. -/
theorem decodeInvertsEncode : Obligations.DecodeInvertsEncode := by
  unfold Obligations.DecodeInvertsEncode
  intro l i h
  cases i with
  | gslq q => exact decodeWord_quadWord_load h 0#1
  | gslqc1 q => exact decodeWord_quadWord_load h 1#1
  | gssq q => exact decodeWord_quadWord_store h 0#1
  | gssqc1 q => exact decodeWord_quadWord_store h 1#1
  | gslbx x | gslhx x | gslwx x | gsldx x | gslwxc1 x | gsldxc1 x =>
    rw [encode, decodeWord_indexedLoad (indexedWord_major ..), decodeIndexedLoad, indexedWord_op0,
      indexedFields_indexedWord]
    rfl
  | gssbx x | gsshx x | gsswx x | gssdx x | gsswxc1 x | gssdxc1 x =>
    rw [encode, decodeWord_indexedStore (indexedWord_major ..), decodeIndexedStore, indexedWord_op0,
      indexedFields_indexedWord]
    rfl

/-- Settles O2: a word that decodes is rebuilt from its major opcode, its selector bits and its fields. -/
theorem encodeInvertsDecode : Obligations.EncodeInvertsDecode := by
  unfold Obligations.EncodeInvertsDecode
  exact fun _ _ _ h => ⟨wellFormed_of_decodeWord h, encode_of_decodeWord h⟩

/-- Settles O6: bit 5 separates the quad words of the two layouts, and format X is decoded without the layout. -/
theorem quadLayoutsAcceptDisjointWords : Obligations.QuadLayoutsAcceptDisjointWords := by
  unfold Obligations.QuadLayoutsAcceptDisjointWords
  intro l k w i hne h
  obtain ⟨hm, hd⟩ | ⟨hm, hd⟩ | ⟨hm, hd⟩ | ⟨hm, hd⟩ := decodeWord_ok_cases h
  · rw [decodeWord_quadLoad hm, formatOf_of_decodeQuad hd]
    exact ⟨fun _ => decodeQuad_other_layout hne hd, nofun⟩
  · rw [decodeWord_quadStore hm, formatOf_of_decodeQuad hd]
    exact ⟨fun _ => decodeQuad_other_layout hne hd, nofun⟩
  · rw [decodeWord_indexedLoad hm, formatOf_of_decodeIndexed (.inl hd)]
    exact ⟨nofun, fun _ => hd⟩
  · rw [decodeWord_indexedStore hm, formatOf_of_decodeIndexed (.inr hd)]
    exact ⟨nofun, fun _ => hd⟩

end Sys2Proof.Proofs
end

section
/-! PROOFS. The family of spec/30_encoding.md, part 2: the displacement and the address that a decoded word stands for. -/

namespace Sys2Proof

open Sys2Proof.Machine

/-! ### Sign extension and the scale of 16 (R75, R76) -/

/-- Sign extension in two steps is sign extension at once. -/
theorem signExtend_signExtend_of_le {n m : Nat} (hnm : n ≤ m) (hm : m ≤ 64) (v : BitVec n) :
    (v.signExtend m).signExtend 64 = v.signExtend 64 := by
  apply BitVec.eq_of_toInt_eq
  rw [BitVec.toInt_signExtend_of_le hm, BitVec.toInt_signExtend_of_le hnm, BitVec.toInt_signExtend_of_le (hnm.trans hm)]

/-- No bit of the product is lost: 16 times a sign-extended value of at most 60 bits does not wrap in 64. -/
theorem toInt_signExtend_mul_sixteen {n : Nat} (hn : n ≤ 60) (v : BitVec n) :
    (v.signExtend 64 * 16#64).toInt = 16 * v.toInt := by
  have hlo := BitVec.le_two_mul_toInt (x := v)
  have hhi := BitVec.two_mul_toInt_lt (x := v)
  have hpow : (2 : Int) ^ n ≤ 2 ^ 60 := pow_le_pow_right₀ (by decide) hn
  rw [BitVec.toInt_mul, BitVec.toInt_signExtend_of_le (hn.trans (by decide)), show (16#64).toInt = 16 from rfl,
    Int.bmod_eq_of_le (by omega) (by omega), mul_comm]

/-! ### The operands of a decoded indexed word (R74) -/

/-- No instruction has the operands of both formats. -/
theorem indexedOperands_eq_none_of_quadOperands {i : Instr} {q : QFields} (h : quadOperands i = some q) :
    indexedOperands i = none := by
  cases i with
  | gslq | gslqc1 | gssq | gssqc1 => rfl
  | _ => cases h

/-- The fields of a word that decodes to an indexed form are the word's, under either layout. -/
theorem decodeWord_indexed_cases {l : QuadLayout} {w : Word} {i : Instr} {x : XFields} (h : decodeWord l w = .ok i)
    (hx : indexedOperands i = some x) : x = indexedFields w := by
  obtain ⟨-, hd⟩ | ⟨-, hd⟩ | ⟨-, hd⟩ | ⟨-, hd⟩ := decodeWord_ok_cases h
  · rw [indexedOperands_eq_none_of_quadOperands (decodeQuad_ok_cases hd).2] at hx; cases hx
  · rw [indexedOperands_eq_none_of_quadOperands (decodeQuad_ok_cases hd).2] at hx; cases hx
  · exact Option.some.inj (hx.symm.trans (decodeIndexedLoad_ok_cases hd).1)
  · exact Option.some.inj (hx.symm.trans (decodeIndexedStore_ok_cases hd).1)

/-! ### The displacement of the fields of a word -/

theorem quadDisp_quadFields_figure (w : Word) :
    quadDisp (quadFields .sourceFigure w) = (w.extractLsb' 7 8).signExtend 64 * 16#64 :=
  congrArg (· * 16#64) (signExtend_signExtend_of_le (by decide) (by decide) (w.extractLsb' 7 8))

theorem addressOf_eq_quadAddr {i : Instr} {q : QFields} (h : quadOperands i = some q) (s : State) :
    addressOf i s = quadAddr s q := by
  rw [addressOf, h]
  rfl

end Sys2Proof

namespace Sys2Proof.Proofs

open Sys2Proof.Machine

/-- Settles O7: the offset field is w[14:7], and its product with 16 is exact in 64 bits. -/
theorem quadImmediateScaledBySixteen : Obligations.QuadImmediateScaledBySixteen := by
  unfold Obligations.QuadImmediateScaledBySixteen
  intro s w i q h hq
  obtain ⟨-, rfl⟩ := decodeWord_quad_cases h hq
  have hint := toInt_signExtend_mul_sixteen (by decide) (w.extractLsb' 7 8)
  have hlo := BitVec.le_toInt (w.extractLsb' 7 8)
  have hhi := BitVec.toInt_lt (x := w.extractLsb' 7 8)
  have haddr : quadAddr s (quadFields .sourceFigure w)
      = quadDisp (quadFields .sourceFigure w) + s.readGpr (w.extractLsb' 21 5) := BitVec.add_comm ..
  rw [haddr, quadDisp_quadFields_figure, hint]
  exact ⟨rfl, (BitVec.shiftLeft_eq_mul_twoPow _ 4).symm, rfl, by omega, by omega, rfl⟩

/-- Settles O57: the offset field is w[14:6], and its product with 16 is exact in 64 bits. -/
theorem toolchainQuadImmediateIsNineBits : Obligations.ToolchainQuadImmediateIsNineBits := by
  unfold Obligations.ToolchainQuadImmediateIsNineBits
  intro s w i q h hq
  have haddr := addressOf_eq_quadAddr hq s
  obtain ⟨hr, rfl⟩ := decodeWord_quad_cases h hq
  have hbit : w.getLsbD 5 = true := by
    simpa using congrArg (·.getLsbD 0) ((quadReserved_toolchain_eq_none w).1 hr)
  have hint : (quadDisp (quadFields .toolchain w)).toInt = 16 * (w.extractLsb' 6 9).toInt :=
    toInt_signExtend_mul_sixteen (by decide) (w.extractLsb' 6 9)
  have hlo := BitVec.le_toInt (w.extractLsb' 6 9)
  have hhi := BitVec.toInt_lt (x := w.extractLsb' 6 9)
  exact ⟨rfl, rfl, rfl, hbit, rfl, hint, by omega, by omega, BitVec.add_comm .., haddr⟩

/-- Settles O8: the offset field is w[10:3], and sign extension keeps its signed value. -/
theorem indexedImmediateUnscaled : Obligations.IndexedImmediateUnscaled := by
  unfold Obligations.IndexedImmediateUnscaled
  intro l s w i x h hx
  obtain rfl := decodeWord_indexed_cases h hx
  have hint : (indexedDisp (indexedFields w)).toInt = (w.extractLsb' 3 8).toInt :=
    BitVec.toInt_signExtend_of_le (by decide)
  have hlo := BitVec.le_toInt (w.extractLsb' 3 8)
  have hhi := BitVec.toInt_lt (x := w.extractLsb' 3 8)
  have haddr : indexedAddr s (indexedFields w) = (w.extractLsb' 3 8).signExtend 64 + s.readGpr (w.extractLsb' 11 5)
      + s.readGpr (w.extractLsb' 21 5) := by
    rw [indexedAddr, BitVec.add_assoc, BitVec.add_comm, BitVec.add_comm (s.readGpr _)]
    rfl
  exact ⟨rfl, hint, by omega, by omega, haddr⟩

end Sys2Proof.Proofs
end

section
/-! PROOFS. The family of spec/30_encoding.md, part 3: how a step ends where it runs no instruction (R80 to R83, R195,
R196). -/

namespace Sys2Proof.Machine

theorem step_of_fetch_error {s : State} {p : Stop} (h : fetch s = .error p) : step s = p.outcome := by
  rw [step, h]

theorem fetch_eq_runEnded {s : State} (hl : badLaunch s = false) (hpc : s.pc.toNat = s.textEnd) :
    fetch s = .error (.fault .runEnded) := by
  simp [fetch, hl, hpc]

theorem State.pcInText_eq_false_iff (s : State) :
    s.pcInText = false ↔ s.pc.toNat < s.textBase.toNat ∨ s.textEnd ≤ s.pc.toNat := by
  rw [← Bool.not_eq_true, s.pcInText_iff, not_and_or, Nat.not_le, Nat.not_lt]

/-- A pc outside the text, and not just after it, is not in scope (R195). -/
theorem fetch_eq_notInScope {s : State} (hl : badLaunch s = false)
    (hpc : s.pc.toNat < s.textBase.toNat ∨ s.textEnd < s.pc.toNat) : fetch s = .error (.refused .notInScope) := by
  have hbase : s.textBase.toNat ≤ s.textEnd := Nat.le_add_right ..
  have hne : s.pc.toNat ≠ s.textEnd := by omega
  have hout : s.pcInText = false := s.pcInText_eq_false_iff.2 (hpc.imp_right Nat.le_of_lt)
  simp [fetch, hl, hne, hout]

/-- The start of a step whose bytes do not decode (R195). -/
theorem fetch_eq_refused {s : State} {e : DecodeError} (hl : badLaunch s = false) (hp : s.pcInText = true)
    (hd : decode s.params.quadLayout s.params.byteOrder s.fetchBytes = .error e) :
    fetch s = .error (.refused (refusalOf e)) := by
  have hne : s.pc.toNat ≠ s.textEnd := Nat.ne_of_lt (s.pcInText_iff.1 hp).2
  simp [fetch, hl, hp, hd, hne]

/-- Four bytes of memory are never too short for an instruction (R70). -/
theorem decode_readBytes_ne_truncated (l : QuadLayout) (o : ByteOrder) (m : Memory) (a : Nat) :
    decode l o (m.readBytes a 4) ≠ .error .truncated := by
  simp only [Memory.readBytes, decode]
  split
  · nofun
  · next e he => exact fun h => decodeWord_ne_truncated l _ (he.trans (congrArg _ (Except.error.inj h)))

end Sys2Proof.Machine

namespace Sys2Proof.Proofs

open Sys2Proof.Machine

/-- Settles O51: the launch conditions let the fetch go on, and where it yields no instruction its stop is the step's
outcome. -/
theorem runEndsAfterTheProgramText : Obligations.RunEndsAfterTheProgramText := by
  unfold Obligations.RunEndsAfterTheProgramText
  refine fun s hl => ⟨fun hpc => step_of_fetch_error (fetch_eq_runEnded hl hpc),
    fun hpc => step_of_fetch_error (fetch_eq_notInScope hl hpc), fun a hp ha => ?_⟩
  rw [← (fetchAddress_eq_iff s.params s.pc a).2 ha]
  have hrefused {e : DecodeError} (hd : decode s.params.quadLayout s.params.byteOrder s.fetchBytes = .error e) :
      step s = .refused (refusalOf e) := step_of_fetch_error (fetch_eq_refused hl hp hd)
  exact ⟨hrefused, hrefused, hrefused, hrefused, decode_readBytes_ne_truncated _ _ _ _⟩

end Sys2Proof.Proofs
end

section
/-! PROOFS. The family of spec/41_indexed_load_store.md: the address of an indexed load is that of the state before, also
where its destination is the base or the index (R137). -/

namespace Sys2Proof.Machine

/-- The address of an indexed form whose base is its index (R41). -/
theorem indexedAddr_of_base_eq_index {x : XFields} (h : x.rs = x.rd) (s : State) :
    indexedAddr s x = 2#64 * s.readGpr x.rs + x.offset.signExtend 64 := by
  rw [indexedAddr, ← h, BitVec.two_mul, indexedDisp]

/-- What a completed load to a general register leaves in it, register 0 included (R21). -/
theorem readGpr_of_next_or_zero {i : Instr} {s t : State} {a : Nat} {r : RegNum} {v : Dword} (h : exec i s = .next t)
    (ha : translatesTo s.params (addressOf i s) (accessOf i) a = true) (he : effectOf i s a = s.writeGpr r v) :
    t.readGpr r = if r = 0#5 then 0#64 else v := by
  split
  · next hr => rw [hr, State.readGpr_zero]
  · next hr => exact readGpr_of_next h ha he hr

/-- A completed load to a floating-point register leaves every general register, the one of its number included. -/
theorem readGpr_of_next_writeFpr {i : Instr} {s t : State} {a : Nat} {r : RegNum} {v : Dword} (h : exec i s = .next t)
    (ha : translatesTo s.params (addressOf i s) (accessOf i) a = true) (he : effectOf i s a = s.writeFpr r v)
    (q : RegNum) : t.readGpr q = s.readGpr q := by
  rw [exec_next_at h ha, he, State.readGpr_advance, State.readGpr_writeFpr]

end Sys2Proof.Machine

namespace Sys2Proof.Proofs

open Sys2Proof.Machine

/-- Settles O45: the effect of a load is made at the translation of the address that the state before gives, whatever
register it writes. -/
theorem destinationMayBeBaseOrIndex : Obligations.DestinationMayBeBaseOrIndex := by
  unfold Obligations.DestinationMayBeBaseOrIndex
  refine fun x s t a => ⟨fun h => indexedAddr_of_base_eq_index h s, fun _ ha =>
    ⟨fun h => ?_, fun h => ?_, fun h => ?_, fun h => ?_, fun h => ?_, fun h => ?_⟩⟩
  · exact readGpr_of_next_or_zero h ha rfl
  · exact readGpr_of_next_or_zero h ha rfl
  · exact readGpr_of_next_or_zero h ha rfl
  · exact readGpr_of_next_or_zero h ha rfl
  · have hgpr := readGpr_of_next_writeFpr h ha rfl
    exact ⟨readFpr_of_next h ha rfl, hgpr x.rs, hgpr x.rd⟩
  · have hgpr := readGpr_of_next_writeFpr h ha rfl
    exact ⟨readFpr_of_next h ha rfl, hgpr x.rs, hgpr x.rd⟩

end Sys2Proof.Proofs
end

section
/-! PROOFS. The family of spec/60_exceptions.md: when Coprocessor Unusable names coprocessor 2 (R156, R134), and the TLB
exceptions as the answers of `Translate` (R152 to R154). -/

namespace Sys2Proof.Machine

/-! ### The enables come first (R163 steps 1 and 2) -/

theorem exec_of_earlyStop {i : Instr} {s : State} {p : Stop} (h : earlyStop i s = some p) : exec i s = p.outcome := by
  rw [exec_eq_perform, h, perform]

/-- On GS464 with CU2 off the enables stop every instruction: a quad form with an exception, an indexed form with a
refusal (R156, R134). -/
theorem earlyStop_of_gs464_cu2_off {i : Instr} {s : State} (hcore : s.params.core = .gs464) (hcu2 : s.cu2 = false) :
    (formatOf i = .quad → earlyStop i s = some (raise (.coprocessorUnusable 2) s))
      ∧ (formatOf i = .indexed → earlyStop i s = some (.refused .indexedOnGs464Cu2Off)) := by
  constructor
  · intro hf; simp [earlyStop, enableStop, hcore, hcu2, hf]
  · intro hf; simp [earlyStop, enableStop, hcore, hcu2, hf]

/-- Coprocessor Unusable is raised by the enables alone, never by the access. -/
theorem earlyStop_of_exec_coprocessorUnusable {i : Instr} {s : State} {u : Nat} {pc : VAddr}
    (h : exec i s = .fault (.raised (.coprocessorUnusable u) pc)) :
    earlyStop i s = some (.fault (.raised (.coprocessorUnusable u) pc)) := by
  rw [exec_eq_perform] at h
  obtain ⟨p, hp, ho⟩ | ⟨-, p, hp, ho⟩ := perform_stop_cases h (by simp)
  · rw [hp, Stop.outcome_eq_fault ho.symm]
  · rw [Stop.outcome_eq_fault ho.symm] at hp
    obtain ⟨-, ⟨he, -⟩ | ⟨he, -⟩ | ⟨he, -⟩ | ⟨he, -⟩ | ⟨a, -, -, ⟨he, -⟩ | ⟨he, -⟩⟩⟩ := resolve_raised_cases hp
    all_goals cases he

/-- Coprocessor Unusable with number 2 has one cause (R156). -/
theorem gs464_cu2_off_of_earlyStop {i : Instr} {s : State} {pc : VAddr}
    (h : earlyStop i s = some (.fault (.raised (.coprocessorUnusable 2) pc))) :
    s.params.core = .gs464 ∧ s.cu2 = false := by
  unfold earlyStop enableStop raise at h
  split at h
  · next hoff => exact hoff
  split at h
  · cases h
  · rw [Option.none_or] at h
    split at h <;> cases h

/-! ### The translation's answer (R163 step 5) -/

/-- The exception a translation ends in, where it ends in one (R152 to R154). -/
def translationExc (acc : Access) (v : VAddr) : Translation → Option Exc
  | .mapped _ _  => none
  | .tlbRefill   => some (.tlbRefill acc v)
  | .tlbInvalid  => some (.tlbInvalid acc v)
  | .tlbModified => some (.tlbModified v)

theorem translationExc_eq_tlbRefill {acc acc' : Access} {v v' : VAddr} {t : Translation} :
    translationExc acc v t = some (.tlbRefill acc' v') ↔ t = .tlbRefill ∧ acc' = acc ∧ v' = v := by
  cases t <;> simp [translationExc, eq_comm]

theorem translationExc_eq_tlbInvalid {acc acc' : Access} {v v' : VAddr} {t : Translation} :
    translationExc acc v t = some (.tlbInvalid acc' v') ↔ t = .tlbInvalid ∧ acc' = acc ∧ v' = v := by
  cases t <;> simp [translationExc, eq_comm]

theorem translationExc_eq_tlbModified {acc : Access} {v v' : VAddr} {t : Translation} :
    translationExc acc v t = some (.tlbModified v') ↔ t = .tlbModified ∧ v' = v := by
  cases t <;> simp [translationExc, eq_comm]

theorem resolve_eq_translationExc {s : State} {r : Request} {e : Exc}
    (hal : Aligned s r.format r.access r.size r.vAddr) (hallow : addrAllowed s.params r.vAddr r.size r.access = true)
    (he : translationExc r.access r.vAddr (addressTranslation s.params r.vAddr r.access) = some e) :
    resolve s r = .error (raise e s) := by
  unfold resolve
  rw [(misaligned_eq_false s r).2 hal, hallow, if_neg Bool.false_ne_true, if_neg Bool.true_eq_false.mp]
  cases ht : addressTranslation s.params r.vAddr r.access with
  | mapped a cca => rw [ht] at he; cases he
  | tlbRefill => rw [ht] at he; cases he; rfl
  | tlbInvalid => rw [ht] at he; cases he; rfl
  | tlbModified => rw [ht] at he; cases he; rfl

/-- Where the checks before the translation pass, an instruction raises the exception its translation ends in. -/
theorem exec_eq_translationExc {i : Instr} {s : State} {e : Exc} (hc : CoprocessorsOn s (touchesFpr i))
    (hd : sameDestinations i = false) (hal : Aligned s (formatOf i) (accessOf i) (bytesMoved i) (addressOf i s))
    (hallow : addrAllowed s.params (addressOf i s) (bytesMoved i) (accessOf i) = true)
    (he : translationExc (accessOf i) (addressOf i s)
      (addressTranslation s.params (addressOf i s) (accessOf i)) = some e) :
    exec i s = .fault (.raised e s.pc) := by
  have hearly : earlyStop i s = none := (earlyStop_eq_none i s).2 ⟨hc, hd⟩
  have hr : resolve s (requestOf i s) = .error (raise e s) := resolve_eq_translationExc hal hallow he
  rw [exec_eq_perform, perform_eq_stop (effectOf i s) hearly hr]
  rfl

/-- An exception of the kind a translation ends in is raised on the answer of the instruction's own translation only. -/
theorem translationExc_of_exec {i : Instr} {s : State} {acc : Access} {v pc : VAddr} {t : Translation} {e : Exc}
    (ht : translationExc acc v t = some e) (h : exec i s = .fault (.raised e pc)) :
    translationExc (accessOf i) (addressOf i s) (addressTranslation s.params (addressOf i s) (accessOf i)) = some e := by
  obtain ⟨-, rfl | rfl⟩ | hr := exec_raised_cases h
  iterate 2 cases t <;> cases ht
  obtain ⟨-, ⟨rfl, -⟩ | ⟨rfl, ha⟩ | ⟨rfl, ha⟩ | ⟨rfl, ha⟩ | ⟨a, -, -, ⟨rfl, -⟩ | ⟨rfl, -⟩⟩⟩ := resolve_raised_cases hr
  · cases t <;> cases ht
  · exact translationExc_eq_tlbRefill.2 ⟨ha, rfl, rfl⟩
  · exact translationExc_eq_tlbInvalid.2 ⟨ha, rfl, rfl⟩
  · exact translationExc_eq_tlbModified.2 ⟨ha, rfl⟩
  iterate 2 cases t <;> cases ht

/-- With no translation unit the translation is the identity (R57; log 5). -/
theorem addressTranslation_identity {p : Params} (h : p.units = []) (v : VAddr) (acc : Access) :
    addressTranslation p v acc = .mapped v.toNat Config.anyCca := by
  rw [addressTranslation, h, List.findSome?_nil, Option.getD_none]

theorem units_ne_nil_of_translationExc {p : Params} {v : VAddr} {acc : Access} {e : Exc}
    (h : translationExc acc v (addressTranslation p v acc) = some e) : p.units ≠ [] := by
  intro hu
  rw [addressTranslation_identity hu] at h
  cases h

end Sys2Proof.Machine

namespace Sys2Proof.Proofs

open Sys2Proof.Machine

/-- Settles O33: the test of CU2 on GS464 is the first of all, and the one origin of number 2. -/
theorem coprocessorTwoNeededOnGs464Only : Obligations.CoprocessorTwoNeededOnGs464Only := by
  unfold Obligations.CoprocessorTwoNeededOnGs464Only
  refine fun i s => ⟨fun hcore hcu2 => ?_, fun hcore pc h => ?_⟩
  · obtain ⟨hquad, hindexed⟩ := earlyStop_of_gs464_cu2_off (i := i) hcore hcu2
    exact ⟨fun hf => ⟨s.pc, exec_of_earlyStop (hquad hf)⟩, fun hf => exec_of_earlyStop (hindexed hf)⟩
  · obtain ⟨hold, -⟩ := gs464_cu2_off_of_earlyStop (earlyStop_of_exec_coprocessorUnusable h)
    rw [hcore] at hold
    cases hold

/-- Settles O35: both directions go through the exception that the instruction's own translation ends in; a load's
translation never ends in TLB Modified. -/
theorem tlbExceptionsFollowTranslate : Obligations.TlbExceptionsFollowTranslate := by
  unfold Obligations.TlbExceptionsFollowTranslate
  refine fun i s => ⟨fun hc hd hal hallow => ⟨fun ht => ⟨s.pc, ?_⟩, fun ht => ⟨s.pc, ?_⟩, fun ht => ⟨s.pc, ?_⟩⟩,
    fun acc v pc h => ?_, fun acc v pc h => ?_, fun v pc h => ?_⟩
  · exact exec_eq_translationExc hc hd hal hallow (translationExc_eq_tlbRefill.2 ⟨ht, rfl, rfl⟩)
  · exact exec_eq_translationExc hc hd hal hallow (translationExc_eq_tlbInvalid.2 ⟨ht, rfl, rfl⟩)
  · exact exec_eq_translationExc hc hd hal hallow (translationExc_eq_tlbModified.2 ⟨ht, rfl⟩)
  · have he := translationExc_of_exec (t := .tlbRefill) rfl h
    obtain ⟨ht, rfl, rfl⟩ := translationExc_eq_tlbRefill.1 he
    exact ⟨rfl, rfl, ht, units_ne_nil_of_translationExc he⟩
  · have he := translationExc_of_exec (t := .tlbInvalid) rfl h
    obtain ⟨ht, rfl, rfl⟩ := translationExc_eq_tlbInvalid.1 he
    exact ⟨rfl, rfl, ht, units_ne_nil_of_translationExc he⟩
  · have he := translationExc_of_exec (acc := .store) (t := .tlbModified) rfl h
    obtain ⟨ht, rfl⟩ := translationExc_eq_tlbModified.1 he
    have hstore : accessOf i = .store := by
      cases hacc : accessOf i with
      | load => rw [hacc] at ht; exact absurd ht (addressTranslation_load_ne_tlbModified s.params _)
      | store => rfl
    exact ⟨hstore, rfl, hstore ▸ ht, units_ne_nil_of_translationExc he⟩

end Sys2Proof.Proofs
end

section
/-! PROOFS. The family other, part 1: what every completed instruction keeps, the invariant of a run, and the length
of a run (spec/10_state.md, spec/70_reset_and_hazards.md). -/

namespace Sys2Proof.Machine

/-! ### What an effect keeps -/

/-- An instruction changes no general register but those of R22. -/
theorem readGpr_effectOf_of_not_written {i : Instr} {r : RegNum} (h : r ∉ gprsWritten i) (s : State) (a : Nat) :
    (effectOf i s a).readGpr r = s.readGpr r := by
  cases i <;> simp_all [gprsWritten, effectOf, State.readGpr_writeGpr]

/-- An instruction changes no floating-point register but those of R22. -/
theorem readFpr_effectOf_of_not_written {i : Instr} {r : RegNum} (h : r ∉ fprsWritten i) (s : State) (a : Nat) :
    (effectOf i s a).readFpr r = s.readFpr r := by
  cases i <;> simp_all [fprsWritten, effectOf, State.readFpr_writeFpr]

theorem effectOf_slot_zero (i : Instr) (s : State) (a : Nat) : (effectOf i s a).x[0] = s.x[0] := by
  cases i with
  | gslq q => exact (State.writeGpr_slot_zero _ _ _).trans (State.writeGpr_slot_zero _ _ _)
  | gslbx x | gslhx x | gslwx x | gsldx x => exact State.writeGpr_slot_zero _ _ _
  | _ => rfl

theorem effectOf_mem_of_load {i : Instr} (h : accessOf i = .load) (s : State) (a : Nat) :
    (effectOf i s a).mem = s.mem := by
  obtain ⟨-, hm⟩ | ⟨hstore, -⟩ := effectOf_mem i s a
  · exact hm
  · rw [h] at hstore; cases hstore

/-- An effect changes no byte but those its instruction moves. -/
theorem effectOf_mem_read_of_outside {i : Instr} {s : State} {a b : Nat} (h : b < a ∨ a + bytesMoved i ≤ b) :
    (effectOf i s a).mem.read b = s.mem.read b := by
  obtain ⟨-, hm⟩ | ⟨-, bs, hlen, hm⟩ := effectOf_mem i s a
  · rw [hm]
  · rw [hm, Memory.read_writeBytes_of_outside bs s.mem a b (hlen ▸ h)]

theorem effectOf_mem_wf (i : Instr) {s : State} (a : Nat) (h : s.mem.wf) : (effectOf i s a).mem.wf := by
  obtain ⟨-, hm⟩ | ⟨-, bs, -, hm⟩ := effectOf_mem i s a
  · exact hm ▸ h
  · exact hm ▸ Memory.writeBytes_wf bs a h

/-- An instruction whose bytes all exist lists no byte of memory that does not (R58). -/
theorem effectOf_mem_exists {i : Instr} {s : State} {a : Nat} (he : allExist s.ram a (bytesMoved i) = true)
    (h : ∀ c ∈ s.mem, existsAt s.ram c.1 = true) : ∀ c ∈ (effectOf i s a).mem, existsAt s.ram c.1 = true := by
  intro c hc
  obtain ⟨-, hm⟩ | ⟨-, bs, hlen, hm⟩ := effectOf_mem i s a
  · exact h c (hm ▸ hc)
  · rw [hm] at hc
    obtain ⟨hlo, hhi⟩ | hold := Memory.mem_writeBytes bs hc
    · rw [hlen] at hhi
      have := (allExist_iff s.ram a (bytesMoved i)).1 he (c.1 - a) (by omega)
      rwa [Nat.add_sub_cancel' hlo] at this
    · exact h c hold

/-! ### What a completed instruction keeps -/

theorem exec_next_pc {i : Instr} {s t : State} (h : exec i s = .next t) : t.pc = s.pc + 4#64 := by
  obtain ⟨-, -, a, -, rfl⟩ := exec_next_cases h
  rw [State.advance_pc, effectOf_pc]

theorem exec_next_fixed {i : Instr} {s t : State} (h : exec i s = .next t) : LaunchFixed s t := by
  obtain ⟨-, -, a, -, rfl⟩ := exec_next_cases h
  exact effectOf_fixed i s a

theorem exec_next_gprs {i : Instr} {s t : State} (h : exec i s = .next t) {r : RegNum} (hr : r ∉ gprsWritten i) :
    t.readGpr r = s.readGpr r := by
  obtain ⟨-, -, a, -, rfl⟩ := exec_next_cases h
  exact readGpr_effectOf_of_not_written hr s a

theorem exec_next_fprs {i : Instr} {s t : State} (h : exec i s = .next t) {r : RegNum} (hr : r ∉ fprsWritten i) :
    t.readFpr r = s.readFpr r := by
  obtain ⟨-, -, a, -, rfl⟩ := exec_next_cases h
  exact readFpr_effectOf_of_not_written hr s a

theorem exec_next_mem_of_load {i : Instr} {s t : State} (h : exec i s = .next t) (hl : accessOf i = .load) :
    t.mem = s.mem := by
  obtain ⟨-, -, a, -, rfl⟩ := exec_next_cases h
  exact effectOf_mem_of_load hl s a

/-! ### One step -/

theorem toNat_pc_add_four {v : VAddr} (h : v.toNat + 4 < 2 ^ 64) : (v + 4#64).toNat = v.toNat + 4 := by
  bv_omega

/-- A step moves pc to the next word and not past the end of the text, which stays where it is. -/
theorem step_next_pc {s t : State} (h : step s = .next t) :
    t.pc.toNat = s.pc.toNat + 4 ∧ s.pc.toNat + 4 ≤ s.textEnd ∧ t.textEnd = s.textEnd := by
  obtain ⟨i, hfetch, hexec, hwrap⟩ := step_next_cases h
  obtain ⟨hlaunch, hin, -⟩ := fetch_ok_cases hfetch
  obtain ⟨hpc, hbase, -⟩ := (badLaunch_eq_false s).1 hlaunch
  obtain ⟨-, hlt⟩ := s.pcInText_iff.1 hin
  obtain ⟨-, -, -, htb, htl, -⟩ := exec_next_fixed hexec
  refine ⟨?_, ?_, ?_⟩
  · rw [exec_next_pc hexec, toNat_pc_add_four hwrap]
  · unfold State.textEnd at hlt ⊢
    omega
  · rw [State.textEnd, State.textEnd, htb, htl]

/-- A completed instruction that does not wrap pc keeps the invariant of a run. -/
theorem exec_keeps_inv {i : Instr} {s t : State} (hinv : s.Inv) (hwrap : s.pc.toNat + 4 < 2 ^ 64)
    (h : exec i s = .next t) : t.Inv := by
  obtain ⟨hwf, hlisted, hslot, hpc, hbase⟩ := hinv
  have hmove := exec_next_pc h
  obtain ⟨-, -, hram, htb, -, -⟩ := exec_next_fixed h
  obtain ⟨-, -, a, ⟨-, -, -, -, -, -, hexist, -⟩, rfl⟩ := exec_next_cases h
  refine ⟨effectOf_mem_wf i a hwf, ?_, (effectOf_slot_zero i s a).trans hslot, ?_, htb ▸ hbase⟩
  · exact hram ▸ effectOf_mem_exists hexist hlisted
  · rw [hmove, toNat_pc_add_four hwrap]
    omega

/-! ### Runs -/

theorem run_succ_eq_next (M : Host.Core) {k : Nat} {s t : M.State} (h : M.run (k + 1) s = .next t) :
    ∃ u, M.step s = .next u ∧ M.run k u = .next t := by
  unfold Host.Core.run at h
  split at h
  · next u hu => exact ⟨u, hu, h⟩
  · cases h
  · cases h

/-- A run that starts no later than the end of the text moves pc by one word a step and stays there. -/
theorem core_run_pc {k : Nat} {s t : State} (hs : s.pc.toNat ≤ s.textEnd)
    (h : Host.Core.run Sys2Proof.core k s = .next t) :
    t.pc.toNat = s.pc.toNat + 4 * k ∧ t.pc.toNat ≤ s.textEnd := by
  induction k generalizing s with
  | zero =>
    cases h
    exact ⟨rfl, hs⟩
  | succ k ih =>
    obtain ⟨u, hu, hrun⟩ := run_succ_eq_next Sys2Proof.core h
    obtain ⟨hpc, hle, hend⟩ := step_next_pc hu
    obtain ⟨ht, hlast⟩ := ih (by omega) hrun
    omega

/-! ### The launch -/

theorem launch_eq_badLaunch_iff (s : State) :
    launch s = .refused .badLaunch ↔ badLaunch s = true ∨ s.pcInText = false := by
  unfold launch
  split
  · next h => simpa using h
  · next h => simpa using h

theorem launch_eq_next_of_ne {s : State} (h : launch s ≠ .refused .badLaunch) : launch s = .next s := by
  unfold launch at h ⊢
  split
  · next hb => exact absurd (if_pos hb) h
  · rfl

/-- The conditions of R193 on a state of a run, each as a way to fail. -/
theorem badLaunch_eq_true (s : State) :
    badLaunch s = true ↔ s.pc.toNat % 4 ≠ 0 ∨ s.textBase.toNat % 4 ≠ 0
      ∨ (∃ j k, j < s.textLen ∧ k < 4 ∧ existsAt s.ram (s.textWordAddress j + k) = false) ∨ 2 ^ 64 < s.textEnd
      ∨ s.params.fpuMode ≠ .independent64 ∨ s.params.hasLext = false := by
  rw [← Bool.not_eq_false, badLaunch_eq_false]
  simp only [not_and_or, not_forall, Bool.not_eq_true, Nat.not_le, exists_prop, ne_eq, exists_and_left]

end Sys2Proof.Machine

namespace Sys2Proof.Proofs

open Sys2Proof.Machine

/-- Settles O54: a step is a completed instruction, whose stores reach bytes that exist only and whose register writes
leave the slot of general register 0. -/
theorem everyStepKeepsTheInvariant : Obligations.EveryStepKeepsTheInvariant := by
  unfold Obligations.EveryStepKeepsTheInvariant
  intro s t hinv hstep
  obtain ⟨i, -, hexec, hwrap⟩ := step_next_cases hstep
  exact exec_keeps_inv hinv hwrap hexec

/-- Settles O56, by induction on the number of steps: each finds pc at a word of the text. -/
theorem everyRunIsFinite : Obligations.EveryRunIsFinite := by
  unfold Obligations.EveryRunIsFinite
  intro s t k hlaunch hrun
  have hstart : s.pc.toNat ≤ s.textEnd := by
    have hgood : ¬ (badLaunch s = true ∨ s.pcInText = false) := by
      rw [← launch_eq_badLaunch_iff, hlaunch]
      nofun
    rw [not_or, Bool.not_eq_false, s.pcInText_iff] at hgood
    exact Nat.le_of_lt hgood.2.2
  obtain ⟨hpc, hend⟩ := core_run_pc hstart hrun
  exact ⟨hpc, hend, by omega⟩

/-- Settles O46: the table of R22 names every register that an effect writes, and a load's effect leaves memory. -/
theorem gprLoadsFrame : Obligations.GprLoadsFrame := by
  unfold Obligations.GprLoadsFrame
  intro i s t hi h
  have hload : accessOf i = .load ∧ fprsWritten i = [] := by
    obtain ⟨q, rfl⟩ | ⟨x, rfl | rfl | rfl | rfl⟩ := hi <;> exact ⟨rfl, rfl⟩
  obtain ⟨hacc, hfprs⟩ := hload
  refine ⟨fun r hr => exec_next_gprs h hr, t.readGpr_zero, fun r => exec_next_fprs h ?_, fun b => ?_, exec_next_fixed h⟩
  · rw [hfprs]; exact List.not_mem_nil
  · rw [exec_next_mem_of_load h hacc]

/-- Settles O47: as for the general registers, by the table of R22. -/
theorem fprLoadsFrame : Obligations.FprLoadsFrame := by
  unfold Obligations.FprLoadsFrame
  intro i s t hi h
  have hload : accessOf i = .load ∧ gprsWritten i = [] := by
    obtain ⟨q, rfl⟩ | ⟨x, rfl | rfl⟩ := hi <;> exact ⟨rfl, rfl⟩
  obtain ⟨hacc, hgprs⟩ := hload
  refine ⟨fun r hr => exec_next_fprs h hr, fun r => exec_next_gprs h ?_, fun b => ?_, exec_next_fixed h⟩
  · rw [hgprs]; exact List.not_mem_nil
  · rw [exec_next_mem_of_load h hacc]

/-- Settles O48: the bytes a store changes lie at the one physical address `Translate` gives. -/
theorem storesFrame : Obligations.StoresFrame := by
  unfold Obligations.StoresFrame
  intro i s t hstore h
  have hnone : gprsWritten i = [] ∧ fprsWritten i = [] := by
    cases i with
    | gssq _ | gssqc1 _ | gssbx _ | gsshx _ | gsswx _ | gssdx _ | gsswxc1 _ | gssdxc1 _ => exact ⟨rfl, rfl⟩
    | _ => cases hstore
  obtain ⟨hgprs, hfprs⟩ := hnone
  refine ⟨fun r => exec_next_gprs h ?_, fun r => exec_next_fprs h ?_, exec_next_fixed h, fun a ha b hb => ?_⟩
  · rw [hgprs]; exact List.not_mem_nil
  · rw [hfprs]; exact List.not_mem_nil
  · rw [exec_next_at h (hstore ▸ ha), State.advance_mem, effectOf_mem_read_of_outside hb]

/-- Settles O49: an effect leaves pc and what the launch fixes, and every instruction ends in pc + 4. -/
theorem everyInstructionAdvancesPcByFour : Obligations.EveryInstructionAdvancesPcByFour := by
  unfold Obligations.EveryInstructionAdvancesPcByFour
  exact fun i s t h => ⟨exec_next_pc h, exec_next_fixed h⟩

/-- Settles O52: the conditions that hold of every state of a run, and pc outside the text. -/
theorem badLaunchConditions : Obligations.BadLaunchConditions := by
  unfold Obligations.BadLaunchConditions
  intro s
  refine ⟨?_, launch_eq_next_of_ne⟩
  rw [launch_eq_badLaunch_iff, badLaunch_eq_true, s.pcInText_eq_false_iff, State.textEnd]
  simp only [or_assoc, or_comm, or_left_comm]

/-- Settles O53, by evaluating the one state it speaks of. -/
theorem resetMeetsTheInvariant : Obligations.ResetMeetsTheInvariant := by
  unfold Obligations.ResetMeetsTheInvariant
  decide

end Sys2Proof.Proofs
end

section
/-! PROOFS. The family other, part 2: the byte lanes of an access in both byte orders (spec/20_memory.md R45). -/

namespace Sys2Proof.Machine

/-! ### The bytes of a value -/

theorem Memory.getElem_readBytes (m : Memory) (a n k : Nat) (hk : k < (m.readBytes a n).length) :
    (m.readBytes a n)[k] = m.read (a + k) := by
  induction n generalizing a k with
  | zero => simp [Memory.readBytes] at hk
  | succ n ih =>
    cases k with
    | zero => rfl
    | succ k => simp only [Memory.readBytes, List.getElem_cons_succ, ih, Nat.add_assoc, Nat.add_comm 1]

/-- Bit `j` of byte `k` is bit `8 * k + j` of the value that bytes make, the first the least significant. -/
theorem testBit_assemble (bs : List Byte) {k j : Nat} (hk : k < bs.length) (hj : j < 8) :
    (assemble bs).testBit (8 * k + j) = bs[k].getLsbD j := by
  induction bs generalizing k with
  | nil => simp at hk
  | cons b bs ih =>
    rw [assemble, Nat.add_comm, show 256 = 2 ^ 8 from rfl, Nat.testBit_two_pow_mul_add _ b.isLt]
    cases k with
    | zero => simp [hj, BitVec.testBit_toNat]
    | succ k =>
      rw [if_neg (by omega), show 8 * (k + 1) + j - 8 = 8 * k + j by omega, ih (Nat.lt_of_succ_lt_succ hk),
        List.getElem_cons_succ]

/-- Lane `k` of the value that bytes make, the first the least significant, is byte `k`. -/
theorem extractLsb'_assemble (bs : List Byte) {w k : Nat} (hk : k < bs.length) (hw : 8 * k + 8 ≤ w) :
    (BitVec.ofNat w (assemble bs)).extractLsb' (8 * k) 8 = bs[k] := by
  refine BitVec.eq_of_getLsbD_eq fun j hj => ?_
  rw [BitVec.getLsbD_extractLsb', BitVec.getLsbD_ofNat, testBit_assemble bs hk hj]
  simp [hj, show 8 * k + j < w by omega]

/-- Values of whole bytes with equal lanes are equal. -/
theorem eq_of_lanes {n : Nat} {u v : BitVec (8 * n)}
    (h : ∀ k, k < n → u.extractLsb' (8 * k) 8 = v.extractLsb' (8 * k) 8) : u = v := by
  refine BitVec.eq_of_getLsbD_eq fun i hi => ?_
  have hlane := congrArg (BitVec.getLsbD · (i % 8)) (h (i / 8) (by omega))
  simpa [BitVec.getLsbD_extractLsb', Nat.mod_lt, Nat.div_add_mod] using hlane

/-! ### The lanes of a read -/

theorem Memory.lane_readValue_little (m : Memory) (a : Nat) {n k : Nat} (hk : k < n) :
    (m.readValue .little a n).extractLsb' (8 * k) 8 = m.read (a + k) := by
  have hlen : k < (m.readBytes a n).length := by rwa [Memory.length_readBytes]
  exact (extractLsb'_assemble _ hlen (by omega)).trans (m.getElem_readBytes a n k hlen)

theorem Memory.lane_readValue_big (m : Memory) (a : Nat) {n k : Nat} (hk : k < n) :
    (m.readValue .big a n).extractLsb' (8 * (n - 1 - k)) 8 = m.read (a + k) := by
  have hlen : n - 1 - k < (m.readBytes a n).reverse.length := by
    rw [List.length_reverse, Memory.length_readBytes]
    omega
  refine (extractLsb'_assemble _ hlen (by omega)).trans ?_
  rw [List.getElem_reverse, Memory.getElem_readBytes, Memory.length_readBytes]
  congr 1
  omega

/-- A narrower read under `LITTLE` inside an access reads a slice of its value. -/
theorem Memory.slice_readValue_little (m : Memory) (a : Nat) {n k w : Nat} (h : k + w ≤ n) :
    (m.readValue .little a n).extractLsb' (8 * k) (8 * w) = m.readValue .little (a + k) w := by
  refine eq_of_lanes fun j hj => ?_
  rw [Memory.lane_readValue_little m (a + k) hj, Nat.add_assoc,
    ← Memory.lane_readValue_little m a (show k + j < n by omega)]
  refine BitVec.eq_of_getLsbD_eq fun i hi => ?_
  simp [hi, show 8 * j + i < 8 * w by omega, Nat.mul_add, Nat.add_assoc]

/-- A narrower read under `LITTLE` inside a value just written reads a slice of it. -/
theorem Memory.readValue_writeValue_little_slice (m : Memory) (a : Nat) {n k w : Nat} (v : BitVec (8 * n))
    (h : k + w ≤ n) : (m.writeValue .little a n v).readValue .little (a + k) w = v.extractLsb' (8 * k) (8 * w) := by
  rw [← Memory.slice_readValue_little _ a h, Memory.readValue_writeValue]

theorem Memory.read_writeValue_of_outside (m : Memory) (o : ByteOrder) {a n b : Nat} (v : BitVec (8 * n))
    (h : b < a ∨ a + n ≤ b) : (m.writeValue o a n v).read b = m.read b :=
  Memory.read_writeBytes_of_outside _ m a b (by rwa [length_arrange, length_splitBytes])

end Sys2Proof.Machine

namespace Sys2Proof.Proofs

open Sys2Proof.Machine

/-- Settles O12: the lanes of a write are those of the value read back. -/
theorem littleEndianByteLanes : Obligations.LittleEndianByteLanes := by
  unfold Obligations.LittleEndianByteLanes
  intro m a n k v hk
  refine ⟨m.lane_readValue_little a hk, ?_⟩
  rw [← Memory.lane_readValue_little _ a hk, Memory.readValue_writeValue]

/-- Settles O13: the lanes of a write are those of the value read back. -/
theorem bigEndianByteLanes : Obligations.BigEndianByteLanes := by
  unfold Obligations.BigEndianByteLanes
  intro m a n k v hk
  refine ⟨m.lane_readValue_big a hk, ?_⟩
  rw [← Memory.lane_readValue_big _ a hk, Memory.readValue_writeValue]

/-- Settles O14, in either byte order alike: the order is undone on reading. -/
theorem memoryReadsBackWhatWasWritten : Obligations.MemoryReadsBackWhatWasWritten := by
  unfold Obligations.MemoryReadsBackWhatWasWritten
  exact fun m o a n v => ⟨m.readValue_writeValue o a n v, fun b hb => m.read_writeValue_of_outside o v hb⟩

/-- Settles O15: each of the three is a slice of the value written. -/
theorem narrowReadsOfADoubleword : Obligations.NarrowReadsOfADoubleword := by
  unfold Obligations.NarrowReadsOfADoubleword
  intro m a v
  have hslice (k w : Nat) (h : k + w ≤ 8) :
      (m.writeValue .little a 8 v).readValue .little (a + k) w = v.extractLsb' (8 * k) (8 * w) :=
    m.readValue_writeValue_little_slice (n := 8) a v h
  refine ⟨fun k hk => hslice k 1 (by omega), fun j hj => ?_, fun j hj => ?_⟩
  · rw [hslice (2 * j) 2 (by omega), ← Nat.mul_assoc]
  · rw [hslice (4 * j) 4 (by omega), ← Nat.mul_assoc]

end Sys2Proof.Proofs
end

section
/-! PROOFS. The family other, part 3: an instruction that nothing stops completes, and what it leaves
(spec/40_quad_load_store.md section 1, spec/41_indexed_load_store.md sections 1 and 2). -/

namespace Sys2Proof.Machine

/-! ### Writes and reads of two -/

/-- Two different general registers written, in the order of R100. -/
theorem State.readGpr_writeGpr_writeGpr (s : State) {p q : RegNum} (h : p ≠ q) (u v : Dword) (r : RegNum) :
    ((s.writeGpr p u).writeGpr q v).readGpr r
      = if r = 0#5 then 0#64 else if r = p then u else if r = q then v else s.readGpr r := by
  by_cases h0 : r = 0#5
  · simp [h0]
  by_cases hp : r = p
  · subst hp; simp [State.readGpr_writeGpr, h0, h]
  · simp [State.readGpr_writeGpr, h0, hp]

/-- Two different floating-point registers written, in the order of R101. -/
theorem State.readFpr_writeFpr_writeFpr (s : State) {p q : RegNum} (h : p ≠ q) (u v : Dword) (r : RegNum) :
    ((s.writeFpr p u).writeFpr q v).readFpr r = if r = p then u else if r = q then v else s.readFpr r := by
  by_cases hp : r = p
  · subst hp; simp [State.readFpr_writeFpr, h]
  · simp [State.readFpr_writeFpr, hp]

/-- A read of bytes that a write does not reach (R55). -/
theorem State.memRead_memWrite_of_disjoint (s : State) {a b n w : Nat} (v : BitVec (8 * w))
    (h : a + n ≤ b ∨ b + w ≤ a) : (s.memWrite b w v).memRead a n = s.memRead a n := by
  have hbytes : (s.memWrite b w v).mem.readBytes a n = s.mem.readBytes a n :=
    Memory.readBytes_congr a n fun k hk => s.mem.read_writeValue_of_outside s.params.byteOrder v (by omega)
  simp only [State.memRead, Memory.readValue, hbytes, State.memWrite_params]

/-! ### Completion, by the shape of the effect -/

section

variable {i : Instr} {s : State} {a : Nat}
  (hc : CoprocessorsOn s (touchesFpr i)) (hd : sameDestinations i = false)
  (hg : AccessGranted s (formatOf i) (accessOf i) (bytesMoved i) (addressOf i s) a)
include hc hd hg

/-- An instruction that nothing stops answers a state that its effect describes, 4 further on. -/
theorem exec_completes :
    ∃ t, exec i s = .next t ∧ (∀ r, t.readGpr r = (effectOf i s a).readGpr r)
      ∧ (∀ r, t.readFpr r = (effectOf i s a).readFpr r) ∧ t.mem = (effectOf i s a).mem ∧ t.pc = s.pc + 4
      ∧ LaunchFixed s t := by
  have hnext := exec_eq_next hc hd hg
  exact ⟨_, hnext, fun _ => rfl, fun _ => rfl, rfl, exec_next_pc hnext, exec_next_fixed hnext⟩

theorem exec_completes_writeGpr {p : RegNum} {v : Dword} (he : effectOf i s a = s.writeGpr p v) :
    ∃ t, exec i s = .next t
      ∧ (∀ r, t.readGpr r = if r = 0#5 then 0#64 else if r = p then v else s.readGpr r)
      ∧ (∀ r, t.readFpr r = s.readFpr r) ∧ t.mem = s.mem ∧ t.pc = s.pc + 4 ∧ LaunchFixed s t := by
  obtain ⟨t, hexec, hgpr, hfpr, hmem, hrest⟩ := exec_completes hc hd hg
  rw [he] at hgpr hfpr hmem
  refine ⟨t, hexec, fun r => ?_, hfpr, hmem, hrest⟩
  rw [hgpr, State.readGpr_writeGpr]
  by_cases h0 : r = 0#5 <;> simp [h0]

theorem exec_completes_writeFpr {p : RegNum} {v : Dword} (he : effectOf i s a = s.writeFpr p v) :
    ∃ t, exec i s = .next t ∧ (∀ r, t.readFpr r = if r = p then v else s.readFpr r)
      ∧ (∀ r, t.readGpr r = s.readGpr r) ∧ t.mem = s.mem ∧ t.pc = s.pc + 4 ∧ LaunchFixed s t := by
  obtain ⟨t, hexec, hgpr, hfpr, hmem, hrest⟩ := exec_completes hc hd hg
  rw [he] at hgpr hfpr hmem
  exact ⟨t, hexec, fun r => (hfpr r).trans (s.readFpr_writeFpr r p v), hgpr, hmem, hrest⟩

theorem exec_completes_memWrite {n : Nat} {v : BitVec (8 * n)} (he : effectOf i s a = s.memWrite a n v) :
    ∃ t, exec i s = .next t ∧ t.memRead a n = v
      ∧ (∀ b, b < a ∨ a + n ≤ b → t.mem.read b = s.mem.read b)
      ∧ (∀ r, t.readGpr r = s.readGpr r) ∧ (∀ r, t.readFpr r = s.readFpr r) ∧ t.pc = s.pc + 4 ∧ LaunchFixed s t := by
  have hnext := exec_eq_next hc hd hg
  rw [he] at hnext
  exact ⟨_, hnext, s.memRead_memWrite a n v, fun b hb => s.mem.read_writeValue_of_outside s.params.byteOrder v hb,
    fun _ => rfl, fun _ => rfl, exec_next_pc hnext, exec_next_fixed hnext⟩

theorem exec_completes_memWrite_memWrite {u v : Dword}
    (he : effectOf i s a = (s.memWrite a 8 u).memWrite (a + 8) 8 v) :
    ∃ t, exec i s = .next t ∧ t.memRead a 8 = u ∧ t.memRead (a + 8) 8 = v
      ∧ (∀ b, b < a ∨ a + 16 ≤ b → t.mem.read b = s.mem.read b)
      ∧ (∀ r, t.readGpr r = s.readGpr r) ∧ (∀ r, t.readFpr r = s.readFpr r) ∧ t.pc = s.pc + 4 ∧ LaunchFixed s t := by
  have hnext := exec_eq_next hc hd hg
  rw [he] at hnext
  refine ⟨_, hnext, ?_, State.memRead_memWrite _ (a + 8) 8 v, fun b hb => ?_, fun _ => rfl, fun _ => rfl,
    exec_next_pc hnext, exec_next_fixed hnext⟩
  · rw [State.memRead_advance, State.memRead_memWrite_of_disjoint _ _ (.inl (Nat.le_refl _)), State.memRead_memWrite]
  · rw [State.advance_mem, State.memWrite_mem, Memory.read_writeValue_of_outside _ _ _ (by omega), State.memWrite_mem,
      Memory.read_writeValue_of_outside _ _ _ (by omega)]

end

end Sys2Proof.Machine

namespace Sys2Proof.Proofs

open Sys2Proof.Machine

/-- Settles O16: its effect writes two different general registers with what was read before either write. -/
theorem gslqLoadsTwoDoublewords : Obligations.GslqLoadsTwoDoublewords := by
  unfold Obligations.GslqLoadsTwoDoublewords
  intro q s a hc hne hg
  obtain ⟨t, hexec, hgpr, hrest⟩ := exec_completes (i := .gslq q) hc (beq_eq_false_iff_ne.2 hne) hg
  exact ⟨t, hexec, fun r => (hgpr r).trans (s.readGpr_writeGpr_writeGpr hne _ _ r), hrest⟩

/-- Settles O17: its effect writes two different floating-point registers. -/
theorem gslqc1LoadsTwoDoublewords : Obligations.Gslqc1LoadsTwoDoublewords := by
  unfold Obligations.Gslqc1LoadsTwoDoublewords
  intro q s a hc hne hg
  obtain ⟨t, hexec, hgpr, hfpr, hrest⟩ := exec_completes (i := .gslqc1 q) hc (beq_eq_false_iff_ne.2 hne) hg
  exact ⟨t, hexec, fun r => (hfpr r).trans (s.readFpr_writeFpr_writeFpr hne _ _ r), hgpr, hrest⟩

/-- Settles O18: the second write does not reach the bytes of the first. -/
theorem gssqStoresTwoDoublewords : Obligations.GssqStoresTwoDoublewords := by
  unfold Obligations.GssqStoresTwoDoublewords
  exact fun q s a hc hg => exec_completes_memWrite_memWrite hc rfl hg rfl

/-- Settles O19: the second write does not reach the bytes of the first. -/
theorem gssqc1StoresTwoDoublewords : Obligations.Gssqc1StoresTwoDoublewords := by
  unfold Obligations.Gssqc1StoresTwoDoublewords
  exact fun q s a hc hg => exec_completes_memWrite_memWrite hc rfl hg rfl

/-- Settles O20: its effect writes one general register. -/
theorem gslbxLoadsSignExtendedByte : Obligations.GslbxLoadsSignExtendedByte := by
  unfold Obligations.GslbxLoadsSignExtendedByte
  exact fun x s a hc hg => exec_completes_writeGpr hc rfl hg rfl

/-- Settles O21: its effect writes one general register. -/
theorem gslhxLoadsSignExtendedHalfword : Obligations.GslhxLoadsSignExtendedHalfword := by
  unfold Obligations.GslhxLoadsSignExtendedHalfword
  exact fun x s a hc hg => exec_completes_writeGpr hc rfl hg rfl

/-- Settles O22: its effect writes one general register. -/
theorem gslwxLoadsSignExtendedWord : Obligations.GslwxLoadsSignExtendedWord := by
  unfold Obligations.GslwxLoadsSignExtendedWord
  exact fun x s a hc hg => exec_completes_writeGpr hc rfl hg rfl

/-- Settles O23: its effect writes one general register. -/
theorem gsldxLoadsDoubleword : Obligations.GsldxLoadsDoubleword := by
  unfold Obligations.GsldxLoadsDoubleword
  exact fun x s a hc hg => exec_completes_writeGpr hc rfl hg rfl

/-- Settles O24: its effect writes one floating-point register. -/
theorem gslwxc1LoadsSignExtendedWord : Obligations.Gslwxc1LoadsSignExtendedWord := by
  unfold Obligations.Gslwxc1LoadsSignExtendedWord
  exact fun x s a hc hg => exec_completes_writeFpr hc rfl hg rfl

/-- Settles O25: its effect writes one floating-point register. -/
theorem gsldxc1LoadsDoubleword : Obligations.Gsldxc1LoadsDoubleword := by
  unfold Obligations.Gsldxc1LoadsDoubleword
  exact fun x s a hc hg => exec_completes_writeFpr hc rfl hg rfl

/-- Settles O26: its effect is one write of memory. -/
theorem gssbxStoresLowByte : Obligations.GssbxStoresLowByte := by
  unfold Obligations.GssbxStoresLowByte
  exact fun x s a hc hg => exec_completes_memWrite hc rfl hg rfl

/-- Settles O27: its effect is one write of memory. -/
theorem gsshxStoresLowHalfword : Obligations.GsshxStoresLowHalfword := by
  unfold Obligations.GsshxStoresLowHalfword
  exact fun x s a hc hg => exec_completes_memWrite hc rfl hg rfl

/-- Settles O28: its effect is one write of memory. -/
theorem gsswxStoresLowWord : Obligations.GsswxStoresLowWord := by
  unfold Obligations.GsswxStoresLowWord
  exact fun x s a hc hg => exec_completes_memWrite hc rfl hg rfl

/-- Settles O29: its effect is one write of memory. -/
theorem gssdxStoresDoubleword : Obligations.GssdxStoresDoubleword := by
  unfold Obligations.GssdxStoresDoubleword
  exact fun x s a hc hg => exec_completes_memWrite hc rfl hg rfl

/-- Settles O30: its effect is one write of memory. -/
theorem gsswxc1StoresLowWord : Obligations.Gsswxc1StoresLowWord := by
  unfold Obligations.Gsswxc1StoresLowWord
  exact fun x s a hc hg => exec_completes_memWrite hc rfl hg rfl

/-- Settles O31: its effect is one write of memory. -/
theorem gssdxc1StoresDoubleword : Obligations.Gssdxc1StoresDoubleword := by
  unfold Obligations.Gssdxc1StoresDoubleword
  exact fun x s a hc hg => exec_completes_memWrite hc rfl hg rfl

end Sys2Proof.Proofs
end

section
/-! PROOFS. The family other, part 4: the order of the tests (spec/60_exceptions.md R163), and what each exception, refusal
and stop is raised on (R108, R155, R157, R159, R160, and R58, R59, R62 of spec/20_memory.md). -/

namespace Sys2Proof.Machine

/-! ### The stops known before the address -/

theorem sameDestinations_eq_false_of_indexed {i : Instr} (h : formatOf i = .indexed) : sameDestinations i = false := by
  cases i with
  | gslq _ | gslqc1 _ | gssq _ | gssqc1 _ => cases h
  | _ => rfl

theorem bytesMoved_pos (i : Instr) : 0 < bytesMoved i := by
  cases i <;> exact Nat.succ_pos _

/-- Coprocessor Unusable with its cause (R156, R157). -/
theorem coprocessorUnusable_cause {i : Instr} {s : State} {e : Exc} {pc : VAddr}
    (h : earlyStop i s = some (.fault (.raised e pc))) :
    pc = s.pc ∧ (e = .coprocessorUnusable 2 ∧ formatOf i = .quad
      ∨ e = .coprocessorUnusable 1 ∧ touchesFpr i = true ∧ s.cu1 = false) := by
  unfold earlyStop enableStop raise at h
  split at h
  · cases hf : formatOf i with
    | quad => rw [hf] at h; cases h; exact ⟨rfl, .inl ⟨rfl, rfl⟩⟩
    | indexed => rw [hf] at h; cases h
  split at h
  · next hoff => cases h; exact ⟨rfl, .inr ⟨rfl, hoff⟩⟩
  · rw [Option.none_or] at h
    split at h <;> cases h

/-- Where the test of coprocessor 2 passes, that of coprocessor 1 is the next (R157). -/
theorem exec_eq_coprocessorUnusable_one {i : Instr} {s : State} (h2 : ¬(s.params.core = .gs464 ∧ s.cu2 = false))
    (hf : touchesFpr i = true) (h1 : s.cu1 = false) :
    exec i s = .fault (.raised (.coprocessorUnusable 1) s.pc) := by
  have hearly : earlyStop i s = some (raise (.coprocessorUnusable 1) s) := by
    simp [earlyStop, enableStop, h2, hf, h1]
  exact exec_of_earlyStop hearly

/-- A quad load with equal destinations is refused whatever its address (R108). -/
theorem exec_eq_quadLoadSameDestination {i : Instr} {s : State} (hc : CoprocessorsOn s (touchesFpr i))
    (hd : sameDestinations i = true) : exec i s = .refused .quadLoadSameDestination := by
  have hearly : earlyStop i s = some (.refused .quadLoadSameDestination) := by
    rw [earlyStop, (enableStop_eq_none ..).2 hc, Option.none_or, if_pos hd]
  exact exec_of_earlyStop hearly

/-- No access is refused for equal destinations. -/
theorem resolve_ne_quadLoadSameDestination {s : State} {r : Request} {p : Stop} (h : resolve s r = .error p) :
    p ≠ .refused .quadLoadSameDestination := by
  obtain ⟨e, rfl⟩ | ⟨a, -, ha⟩ := resolve_error_cases h
  · nofun
  · obtain ⟨e, rfl⟩ | ⟨rfl, -⟩ | ⟨rfl, -⟩ | ⟨rfl, -⟩ := admitStop_some_cases ha <;> nofun

theorem Stop.outcome_eq_refused {p : Stop} {r : Refusal} (h : p.outcome = .refused r) : p = .refused r := by
  cases p with
  | fault q => cases h
  | refused q => rw [Stop.outcome_refused] at h; cases h; rfl

/-- Where its coprocessors are on, an instruction is refused for equal destinations only if it has them (R108). -/
theorem sameDestinations_of_refused {i : Instr} {s : State} (hc : CoprocessorsOn s (touchesFpr i))
    (h : exec i s = .refused .quadLoadSameDestination) : sameDestinations i = true := by
  by_contra hd
  have hearly : earlyStop i s = none := (earlyStop_eq_none i s).2 ⟨hc, Bool.not_eq_true _ ▸ hd⟩
  rw [exec_eq_perform] at h
  obtain ⟨p, hp, -⟩ | ⟨-, p, hp, ho⟩ := perform_stop_cases h (by simp)
  · rw [hearly] at hp; cases hp
  · exact resolve_ne_quadLoadSameDestination hp (Stop.outcome_eq_refused ho.symm)

/-! ### What follows the translation -/

theorem access_eq_store_of_tlbModified {p : Params} {v : VAddr} {acc : Access}
    (h : addressTranslation p v acc = .tlbModified) : acc = .store := by
  cases acc with
  | load => exact absurd h (addressTranslation_load_ne_tlbModified p v)
  | store => rfl

/-- An access that reaches its translation stops where `admitStop` says. -/
theorem resolve_eq_admitStop {s : State} {r : Request} {a : Nat} {p : Stop}
    (hal : Aligned s r.format r.access r.size r.vAddr) (hallow : addrAllowed s.params r.vAddr r.size r.access = true)
    (ha : translatesTo s.params r.vAddr r.access a = true) (hp : admitStop s r a = some p) :
    resolve s r = .error p := by
  unfold resolve
  rw [(misaligned_eq_false s r).2 hal, hallow, if_neg Bool.false_ne_true, if_neg Bool.true_eq_false.mp]
  unfold translatesTo at ha
  cases ht : addressTranslation s.params r.vAddr r.access with
  | mapped b cca =>
    rw [ht] at ha
    rw [← beq_iff_eq.1 ha] at hp
    simp only [hp]
  | tlbRefill => rw [ht] at ha; cases ha
  | tlbInvalid => rw [ht] at ha; cases ha
  | tlbModified => rw [ht] at ha; cases ha

/-- Where neither Watch nor Bus Error is due, the three stops of R59, R58 and R62 are left. -/
theorem admitStop_of_no_exception {s : State} {r : Request} {a : Nat}
    (hw : r.format = .indexed → watchHit s.params r.vAddr r.size r.access = false)
    (hb : r.format = .indexed → r.access = .store → busFault s.params a r.size = false) :
    admitStop s r a =
      if crossesUnit s.params r.vAddr r.size r.access = true then some (.refused .accessCrossesTranslationUnit)
      else if allExist s.ram a r.size = false then some (.fault (.outsideLaunchMemory r.access a r.size))
      else if r.access = .store ∧ s.touchesText a r.size = true then some (.refused .storeToProgramText)
      else none := by
  rw [admitStop, if_neg fun h => Bool.eq_false_iff.1 (hw h.1) h.2,
    if_neg fun h => Bool.eq_false_iff.1 (hb h.1 h.2.1) h.2.2]

section

variable {i : Instr} {s : State} {a : Nat}
  (hc : CoprocessorsOn s (touchesFpr i)) (hd : sameDestinations i = false)
  (hal : Aligned s (formatOf i) (accessOf i) (bytesMoved i) (addressOf i s))
  (hallow : addrAllowed s.params (addressOf i s) (bytesMoved i) (accessOf i) = true)
  (ha : translatesTo s.params (addressOf i s) (accessOf i) a = true)
include hc hd hal hallow ha

/-- An instruction that reaches its translation stops where `admitStop` says. -/
theorem exec_eq_admitStop {p : Stop} (hp : admitStop s (requestOf i s) a = some p) : exec i s = p.outcome := by
  have hearly : earlyStop i s = none := (earlyStop_eq_none i s).2 ⟨hc, hd⟩
  have hr : resolve s (requestOf i s) = .error p := resolve_eq_admitStop hal hallow ha hp
  rw [exec_eq_perform, perform_eq_stop (effectOf i s) hearly hr]

theorem exec_eq_watch (hf : formatOf i = .indexed)
    (hw : watchHit s.params (addressOf i s) (bytesMoved i) (accessOf i) = true) :
    exec i s = .fault (.raised (.watch (accessOf i) (addressOf i s)) s.pc) := by
  have hp : admitStop s (requestOf i s) a = some (raise (.watch (accessOf i) (addressOf i s)) s) := if_pos ⟨hf, hw⟩
  exact exec_eq_admitStop hc hd hal hallow ha hp

theorem exec_eq_busError (hf : formatOf i = .indexed) (hst : accessOf i = .store)
    (hw : watchHit s.params (addressOf i s) (bytesMoved i) (accessOf i) = false)
    (hb : busFault s.params a (bytesMoved i) = true) :
    exec i s = .fault (.raised (.busError a (addressOf i s)) s.pc) := by
  have hp : admitStop s (requestOf i s) a = some (raise (.busError a (addressOf i s)) s) := by
    simp [admitStop, requestOf, hf, hst, hst ▸ hw, hb]
  exact exec_eq_admitStop hc hd hal hallow ha hp

/-- Where no exception is due, the three stops of R59, R58 and R62 come in this order, and then completion. -/
theorem exec_eq_unadmitted
    (hw : formatOf i = .indexed → watchHit s.params (addressOf i s) (bytesMoved i) (accessOf i) = false)
    (hb : formatOf i = .indexed → accessOf i = .store → busFault s.params a (bytesMoved i) = false) :
    if crossesUnit s.params (addressOf i s) (bytesMoved i) (accessOf i) = true then
      exec i s = .refused .accessCrossesTranslationUnit
    else if allExist s.ram a (bytesMoved i) = false then
      exec i s = .fault (.outsideLaunchMemory (accessOf i) a (bytesMoved i))
    else if accessOf i = .store ∧ s.touchesText a (bytesMoved i) = true then
      exec i s = .refused .storeToProgramText
    else ∃ t, exec i s = .next t := by
  have hstop {p : Stop} (hp : admitStop s (requestOf i s) a = some p) := exec_eq_admitStop hc hd hal hallow ha hp
  have hadmit := admitStop_of_no_exception (r := requestOf i s) hw hb
  split
  · next hx => exact hstop (hadmit.trans (if_pos hx))
  next hx =>
  split
  · next hm => exact hstop (hadmit.trans ((if_neg hx).trans (if_pos hm)))
  next hm =>
  split
  · next ht => exact hstop (hadmit.trans ((if_neg hx).trans ((if_neg hm).trans (if_pos ht))))
  · next ht =>
    refine ⟨_, exec_eq_next hc hd ⟨hal, hallow, ha, hw, hb, ?_, ?_, fun hst => ?_⟩⟩
    · exact Bool.eq_false_iff.2 hx
    · exact Bool.not_eq_false _ ▸ hm
    · exact Bool.eq_false_iff.2 fun h => ht ⟨hst, h⟩

end

theorem allExist_eq_false_iff (ram : List Region) (a n : Nat) :
    allExist ram a n = false ↔ ∃ k, k < n ∧ existsAt ram (a + k) = false := by
  rw [← Bool.not_eq_true, allExist_iff]
  simp only [not_forall, Bool.not_eq_true, exists_prop]

/-! ### The order of the tests -/

theorem firstTrue_cons_eq_some {b : Bool} {p q : Stop} {l : List (Bool × Stop)}
    (h : firstTrue ((b, p) :: l) = some q) : b = true ∧ p = q ∨ b = false ∧ firstTrue l = some q := by
  cases b with
  | true => exact .inl ⟨rfl, Option.some.inj h⟩
  | false => exact .inr ⟨rfl, h⟩

theorem firstTrue_cons_eq_none {b : Bool} {p : Stop} {l : List (Bool × Stop)} :
    firstTrue ((b, p) :: l) = none ↔ b = false ∧ firstTrue l = none := by
  cases b <;> simp [firstTrue]

theorem coprocessorsOn_iff (s : State) (fpr : Bool) :
    CoprocessorsOn s fpr ↔ (s.params.core == .gs464 && !s.cu2) = false ∧ (fpr && !s.cu1) = false := by
  simp only [CoprocessorsOn, not_and, Bool.not_eq_false, Bool.and_eq_false_imp, beq_iff_eq, Bool.not_eq_false']

theorem mappedAddress_eq_some_iff (p : Params) (v : VAddr) (acc : Access) (a : Nat) :
    mappedAddress (addressTranslation p v acc) = some a ↔ translatesTo p v acc a = true := by
  unfold translatesTo
  cases addressTranslation p v acc <;> simp [mappedAddress]

/-- A translation that ends in none of its three faults gives an address. -/
theorem exists_translatesTo {p : Params} {v : VAddr} {acc : Access}
    (hr : (addressTranslation p v acc == .tlbRefill) = false)
    (hi : (addressTranslation p v acc == .tlbInvalid) = false)
    (hm : (addressTranslation p v acc == .tlbModified) = false) : ∃ a, translatesTo p v acc a = true := by
  unfold translatesTo
  cases ht : addressTranslation p v acc with
  | mapped a cca => exact ⟨a, beq_self_eq_true a⟩
  | tlbRefill => rw [ht] at hr; cases hr
  | tlbInvalid => rw [ht] at hi; cases hi
  | tlbModified => rw [ht] at hm; cases hm

/-- The first true test of R163 decides the outcome. -/
theorem exec_of_firstTrue {i : Instr} {s : State} {p : Stop} (h : firstTrue (exceptionOrder i s) = some p) :
    exec i s = p.outcome := by
  unfold exceptionOrder at h
  obtain ⟨ht, rfl⟩ | ⟨h1, h⟩ := firstTrue_cons_eq_some h
  · simp only [Bool.and_eq_true, beq_iff_eq, Bool.not_eq_true'] at ht
    obtain ⟨hquad, hindexed⟩ := earlyStop_of_gs464_cu2_off (i := i) ht.1 ht.2
    cases hf : formatOf i with
    | quad => exact exec_of_earlyStop (hquad hf)
    | indexed => exact exec_of_earlyStop (hindexed hf)
  obtain ⟨ht, rfl⟩ | ⟨h2, h⟩ := firstTrue_cons_eq_some h
  · rw [Bool.and_eq_true, Bool.not_eq_true'] at ht
    have hcu2 : ¬(s.params.core = .gs464 ∧ s.cu2 = false) := by simpa using h1
    exact exec_eq_coprocessorUnusable_one hcu2 ht.1 ht.2
  have hc : CoprocessorsOn s (touchesFpr i) := (coprocessorsOn_iff s _).2 ⟨h1, h2⟩
  obtain ⟨ht, rfl⟩ | ⟨hd, h⟩ := firstTrue_cons_eq_some h
  · exact exec_eq_quadLoadSameDestination hc ht
  obtain ⟨ht, rfl⟩ | ⟨h4, h⟩ := firstTrue_cons_eq_some h
  · have hmis : ¬ Aligned s (formatOf i) (accessOf i) (bytesMoved i) (addressOf i s) :=
      fun hal => Bool.eq_false_iff.1 ((misaligned_eq_false s (requestOf i s)).2 hal) ht
    exact exec_eq_addressError hc hd (.inl hmis)
  have hal : Aligned s (formatOf i) (accessOf i) (bytesMoved i) (addressOf i s) :=
    (misaligned_eq_false s (requestOf i s)).1 h4
  obtain ⟨ht, rfl⟩ | ⟨h5, h⟩ := firstTrue_cons_eq_some h
  · exact exec_eq_addressError hc hd (.inr (by simpa using ht))
  have hallow : addrAllowed s.params (addressOf i s) (bytesMoved i) (accessOf i) = true := by simpa using h5
  obtain ⟨ht, rfl⟩ | ⟨h6, h⟩ := firstTrue_cons_eq_some h
  · exact exec_eq_translationExc hc hd hal hallow (translationExc_eq_tlbRefill.2 ⟨beq_iff_eq.1 ht, rfl, rfl⟩)
  obtain ⟨ht, rfl⟩ | ⟨h7, h⟩ := firstTrue_cons_eq_some h
  · exact exec_eq_translationExc hc hd hal hallow (translationExc_eq_tlbInvalid.2 ⟨beq_iff_eq.1 ht, rfl, rfl⟩)
  obtain ⟨ht, rfl⟩ | ⟨h8, h⟩ := firstTrue_cons_eq_some h
  · exact exec_eq_translationExc hc hd hal hallow (translationExc_eq_tlbModified.2 ⟨beq_iff_eq.1 ht, rfl⟩)
  obtain ⟨a, ha⟩ := exists_translatesTo h6 h7 h8
  obtain ⟨ht, rfl⟩ | ⟨h9, h⟩ := firstTrue_cons_eq_some h
  · rw [Bool.and_eq_true, beq_iff_eq] at ht
    exact exec_eq_watch hc hd hal hallow ha ht.1 ht.2
  obtain ⟨ht, rfl⟩ | ⟨-, h⟩ := firstTrue_cons_eq_some h
  · rw [(mappedAddress_eq_some_iff ..).2 ha] at ht ⊢
    simp only [Bool.and_eq_true, beq_iff_eq, Option.any_some] at ht
    obtain ⟨⟨hf, hst⟩, hb⟩ := ht
    have hw : watchHit s.params (addressOf i s) (bytesMoved i) (accessOf i) = false := by simpa [hf] using h9
    exact exec_eq_busError hc hd hal hallow ha hf hst hw hb
  · cases h

/-- Where no test of R163 is true, no exception is raised. -/
theorem exec_ne_raised_of_firstTrue_eq_none {i : Instr} {s : State} (h : firstTrue (exceptionOrder i s) = none)
    (e : Exc) (pc : VAddr) : exec i s ≠ .fault (.raised e pc) := by
  intro hexec
  simp only [exceptionOrder, firstTrue_cons_eq_none] at h
  obtain ⟨h1, h2, hd, h4, h5, h6, h7, h8, h9, h10, -⟩ := h
  have hearly : earlyStop i s = none := (earlyStop_eq_none i s).2 ⟨(coprocessorsOn_iff s _).2 ⟨h1, h2⟩, hd⟩
  have hal : Aligned s (formatOf i) (accessOf i) (bytesMoved i) (addressOf i s) :=
    (misaligned_eq_false s (requestOf i s)).1 h4
  have hallow : addrAllowed s.params (addressOf i s) (bytesMoved i) (accessOf i) = true := by simpa using h5
  have hr : resolve s (requestOf i s) = .error (.fault (.raised e pc)) := by
    obtain ⟨-, rfl | rfl⟩ | hr := exec_raised_cases hexec
    · exact absurd (hearly.symm.trans (earlyStop_of_exec_coprocessorUnusable hexec)) nofun
    · exact absurd (hearly.symm.trans (earlyStop_of_exec_coprocessorUnusable hexec)) nofun
    · exact hr
  obtain ⟨-, ⟨-, hx⟩ | ⟨-, hx⟩ | ⟨-, hx⟩ | ⟨-, hx⟩ | ⟨a, ha, hf, ⟨-, hx⟩ | ⟨-, hst, hx⟩⟩⟩ := resolve_raised_cases hr
  · obtain hx | hx := hx
    · exact hx hal
    · exact Bool.eq_false_iff.1 hx hallow
  · exact beq_eq_false_iff_ne.1 h6 hx
  · exact beq_eq_false_iff_ne.1 h7 hx
  · exact beq_eq_false_iff_ne.1 h8 hx
  · exact Bool.eq_false_iff.1 h9 (Bool.and_eq_true_iff.2 ⟨beq_iff_eq.2 hf, hx⟩)
  · have ha' : translatesTo s.params (addressOf i s) (accessOf i) a = true := ha
    rw [(mappedAddress_eq_some_iff ..).2 ha'] at h10
    exact Bool.eq_false_iff.1 h10
      (Bool.and_eq_true_iff.2 ⟨Bool.and_eq_true_iff.2 ⟨beq_iff_eq.2 hf, beq_iff_eq.2 hst⟩, hx⟩)

/-! ### The default parameters and the tables behind `WatchHit` and `BusFault` -/

theorem crossesUnit_identity {p : Params} (h : p.units = []) (v : VAddr) (n : Nat) (acc : Access) :
    crossesUnit p v n acc = false := by
  simp [crossesUnit, unitIndex, h]

theorem addrAllowed_identity {p : Params} (hu : p.units = []) (hd : p.denied = []) (v : VAddr) (n : Nat)
    (acc : Access) : addrAllowed p v n acc = true := by
  simp [addrAllowed, answersAddressError, hu, hd]

/-- A quad form's access asks neither `WatchHit` nor `BusFault`, and a load's does not ask `BusFault` (R107, R136). -/
theorem admitStop_rewatch {s : State} {r : Request} {w : List AccessPattern} (b : List BusPattern)
    (h : r.format = .quad ∨ r.access = .load ∧ w = s.params.watch) (a : Nat) :
    admitStop (s.rewatch w b) r a = admitStop s r a := by
  obtain hquad | ⟨hload, rfl⟩ := h
  · simp only [admitStop, hquad, reduceCtorEq, false_and, if_false]
    rfl
  · simp only [admitStop, hload, reduceCtorEq, false_and, and_false, if_false]
    rfl

theorem resolve_rewatch {s : State} {r : Request} {w : List AccessPattern} (b : List BusPattern)
    (h : r.format = .quad ∨ r.access = .load ∧ w = s.params.watch) : resolve (s.rewatch w b) r = resolve s r := by
  simp only [resolve, admitStop_rewatch b h]
  rfl

theorem effectOf_rewatch (w : List AccessPattern) (b : List BusPattern) (i : Instr) (s : State) (a : Nat) :
    effectOf i (s.rewatch w b) a = (effectOf i s a).rewatch w b := by
  cases i <;> rfl

theorem exec_rewatch {i : Instr} {s : State} {w : List AccessPattern} (b : List BusPattern)
    (h : formatOf i = .quad ∨ accessOf i = .load ∧ w = s.params.watch) :
    exec i (s.rewatch w b) = mapNext (State.rewatch w b) (exec i s) := by
  have hearly : earlyStop i (s.rewatch w b) = earlyStop i s := rfl
  have hreq : requestOf i (s.rewatch w b) = requestOf i s := by cases i <;> rfl
  have hres : resolve (s.rewatch w b) (requestOf i s) = resolve s (requestOf i s) := resolve_rewatch b h
  simp only [exec_eq_perform, perform, hearly, hreq, hres]
  cases earlyStop i s with
  | some p => exact (mapNext_outcome _ p).symm
  | none =>
    cases resolve s (requestOf i s) with
    | error p => exact (mapNext_outcome _ p).symm
    | ok a =>
      simp only [effectOf_rewatch]
      rfl

end Sys2Proof.Machine

namespace Sys2Proof.Proofs

open Sys2Proof.Machine

/-- Settles O34: number 1 is raised by the enables alone, and there by a floating-point form with cu1 = 0. -/
theorem coprocessorOneNeededForFloatingForms : Obligations.CoprocessorOneNeededForFloatingForms := by
  unfold Obligations.CoprocessorOneNeededForFloatingForms
  refine fun i s hcu2 => ⟨fun ⟨pc, h⟩ => ?_, fun ⟨hf, h1⟩ => ⟨s.pc, exec_eq_coprocessorUnusable_one hcu2 hf h1⟩⟩
  obtain ⟨-, ⟨he, -⟩ | ⟨-, hcause⟩⟩ := coprocessorUnusable_cause (earlyStop_of_exec_coprocessorUnusable h)
  · cases he
  · exact hcause

/-- Settles O36: both are raised after the translation only, Watch as the first test there. -/
theorem watchAndBusErrorFollowTheirParameters : Obligations.WatchAndBusErrorFollowTheirParameters := by
  unfold Obligations.WatchAndBusErrorFollowTheirParameters
  refine fun i s => ⟨fun acc v pc h => ?_, fun a v pc h => ?_, fun a hc hf hal hallow ha => ?_⟩
  · obtain ⟨-, he | he⟩ | hr := exec_raised_cases h
    iterate 2 cases he
    obtain ⟨-, ⟨he, -⟩ | ⟨he, -⟩ | ⟨he, -⟩ | ⟨he, -⟩ | ⟨a, -, hf, ⟨he, hw⟩ | ⟨he, -⟩⟩⟩ := resolve_raised_cases hr
    iterate 4 cases he
    · cases he; exact ⟨hf, rfl, rfl, hw⟩
    · cases he
  · obtain ⟨-, he | he⟩ | hr := exec_raised_cases h
    iterate 2 cases he
    obtain ⟨-, ⟨he, -⟩ | ⟨he, -⟩ | ⟨he, -⟩ | ⟨he, -⟩ | ⟨b, ha, hf, ⟨he, -⟩ | ⟨he, hst, hb⟩⟩⟩ := resolve_raised_cases hr
    iterate 5 cases he
    cases he
    exact ⟨hf, hst, rfl, hst ▸ ha, hb⟩
  · have hd := sameDestinations_eq_false_of_indexed hf
    have hal' : Aligned s (formatOf i) (accessOf i) (bytesMoved i) (addressOf i s) := hf.symm ▸ hal
    exact ⟨exec_eq_watch hc hd hal' hallow ha hf, fun hw hst hb => exec_eq_busError hc hd hal' hallow ha hf hst hw hb⟩

/-- Settles O37: every exception that can arise has its cause, and each cause is one of a listed form; TLB Modified is a
store's. -/
theorem onlyListedExceptionsAreRaised : Obligations.OnlyListedExceptionsAreRaised := by
  unfold Obligations.OnlyListedExceptionsAreRaised
  intro i s e pc h
  obtain ⟨-, he⟩ | hr := exec_raised_cases h
  · have hearly : earlyStop i s = some (.fault (.raised e pc)) := by
      obtain rfl | rfl := he <;> exact earlyStop_of_exec_coprocessorUnusable h
    obtain ⟨hpc, ⟨rfl, hf⟩ | ⟨rfl, hf, -⟩⟩ := coprocessorUnusable_cause hearly
    · exact ⟨.inl (by simp [listedFor, hf]), nofun, hpc, nofun, nofun⟩
    · exact ⟨.inl (by simp [listedFor, hf]), nofun, hpc, nofun, nofun⟩
  have hinj {α : Type} {u v : α} (h : some u = some v) : v = u := (Option.some.inj h).symm
  obtain ⟨hpc, ⟨rfl, -⟩ | ⟨rfl, -⟩ | ⟨rfl, -⟩ | ⟨rfl, hx⟩ | ⟨a, -, hf, ⟨rfl, -⟩ | ⟨rfl, hst, -⟩⟩⟩ :=
    resolve_raised_cases hr
  iterate 3 exact ⟨.inl rfl, nofun, hpc, fun _ => hinj, fun _ => hinj⟩
  · have hst := access_eq_store_of_tlbModified hx
    refine ⟨?_, nofun, hpc, fun _ => hinj, nofun⟩
    cases hf : formatOf i with
    | quad => exact .inr ⟨rfl, hst, _, rfl⟩
    | indexed => exact .inl (Bool.and_eq_true_iff.2 ⟨beq_iff_eq.2 hf, beq_iff_eq.2 hst⟩)
  · exact ⟨.inl (beq_iff_eq.2 hf), nofun, hpc, fun _ => hinj, fun _ => hinj⟩
  · exact ⟨.inl (Bool.and_eq_true_iff.2 ⟨beq_iff_eq.2 hf, beq_iff_eq.2 hst⟩), nofun, hpc, fun _ => hinj, nofun⟩

/-- Settles O38, test by test. -/
theorem firstTestInPriorityOrderDecides : Obligations.FirstTestInPriorityOrderDecides := by
  unfold Obligations.FirstTestInPriorityOrderDecides
  exact fun i s => ⟨fun _ h => exec_of_firstTrue h, exec_ne_raised_of_firstTrue_eq_none⟩

/-- Settles O39: with no table listed every test but those of the enables and of alignment passes. -/
theorem defaultParametersRaiseThreeExceptionsOnly : Obligations.DefaultParametersRaiseThreeExceptionsOnly := by
  unfold Obligations.DefaultParametersRaiseThreeExceptionsOnly
  refine fun i s hu hdenied hwatch hbus => ⟨fun e pc h => ?_, fun v acc n => ⟨?_, crossesUnit_identity hu v n acc⟩⟩
  · obtain ⟨-, rfl | rfl⟩ | hr := exec_raised_cases h
    · exact .inl ⟨2, rfl⟩
    · exact .inl ⟨1, rfl⟩
    obtain ⟨-, ⟨he, hx⟩ | ⟨-, hx⟩ | ⟨-, hx⟩ | ⟨-, hx⟩ | ⟨a, -, -, ⟨-, hx⟩ | ⟨-, -, hx⟩⟩⟩ := resolve_raised_cases hr
    · obtain hx | hx := hx
      · exact .inr ⟨he, fun hmod => hx fun _ => hmod⟩
      · rw [addrAllowed_identity hu hdenied] at hx; cases hx
    iterate 3 rw [addressTranslation_identity hu] at hx; cases hx
    · simp [watchHit, hwatch] at hx
    · simp [busFault, hbus] at hx
  · rw [translatesTo, addressTranslation_identity hu]
    exact beq_self_eq_true _

/-- Settles O40: equal destinations are the one cause of this refusal, and it comes before the address. -/
theorem sameDestinationQuadLoadRefused : Obligations.SameDestinationQuadLoadRefused := by
  unfold Obligations.SameDestinationQuadLoadRefused
  exact fun i s hc => ⟨sameDestinations_of_refused hc, exec_eq_quadLoadSameDestination hc⟩

/-- Settles O41: the order of the stops is `admitStop`'s, and each names its cause in every state. -/
theorem unadmittedAccessStops : Obligations.UnadmittedAccessStops := by
  unfold Obligations.UnadmittedAccessStops
  refine fun i s => ⟨fun a hc hd hal hallow ha hw hb => ?_, fun h => ?_, fun acc a n h => ?_, fun h => ?_⟩
  · have horder := exec_eq_unadmitted hc hd hal hallow ha hw hb
    simpa only [allExist_eq_false_iff, s.touchesText_iff a _ (bytesMoved_pos i)] using horder
  · obtain ⟨e, he⟩ | he | he | ⟨a, -, ⟨-, hx⟩ | ⟨he, -⟩ | ⟨he, -⟩⟩ := exec_stop_cases h nofun
    iterate 3 cases he
    · exact hx
    iterate 2 cases he
  · obtain ⟨e, he⟩ | he | he | ⟨b, ha, ⟨he, -⟩ | ⟨he, hx⟩ | ⟨he, -⟩⟩ := exec_stop_cases h nofun
    iterate 4 cases he
    · cases he
      exact ⟨rfl, rfl, ha, (allExist_eq_false_iff ..).1 hx⟩
    · cases he
  · obtain ⟨e, he⟩ | he | he | ⟨a, ha, ⟨he, -⟩ | ⟨he, -⟩ | ⟨-, hst, hx⟩⟩ := exec_stop_cases h nofun
    iterate 5 cases he
    obtain ⟨k, hk, htext⟩ := (s.touchesText_iff a _ (bytesMoved_pos i)).1 hx
    exact ⟨hst, a, k, hst ▸ ha, hk, htext⟩

/-- Settles O44: the two tables are read after the translation only, where the form and the direction let them be. -/
theorem quadFormsIgnoreWatchAndBusFault : Obligations.QuadFormsIgnoreWatchAndBusFault := by
  unfold Obligations.QuadFormsIgnoreWatchAndBusFault
  exact fun i s w b => ⟨fun hf => exec_rewatch b (.inl hf), fun hl => exec_rewatch b (.inr ⟨hl, rfl⟩)⟩

end Sys2Proof.Proofs
end

section
/-! PROOFS. The family other, part 5: the refusals of the decoding procedure (spec/30_encoding.md R79 to R83), the
register files (spec/10_state.md R20 to R24) and the state after reset. -/

namespace Sys2Proof

/-! ### Words that do not decode -/

theorem extractLsb'_one_eq_zero_iff (w : Word) (j : Nat) : w.extractLsb' j 1 = 0#1 ↔ w.getLsbD j = false := by
  simp [BitVec.eq_of_getLsbD_eq_iff]

theorem extractLsb'_one_eq_one_iff (w : Word) (j : Nat) : w.extractLsb' j 1 = 1#1 ↔ w.getLsbD j = true := by
  simp [BitVec.eq_of_getLsbD_eq_iff]

theorem quadReserved_figure_eq_fmt0 (w : Word) :
    quadReserved .sourceFigure w = some .reservedQFmt0 ↔ w.getLsbD 6 = false := by
  rw [← extractLsb'_one_eq_zero_iff, quadReserved]
  split
  · next h => simp [h]
  · next h => split <;> simp [h]

theorem quadReserved_figure_eq_bit5 (w : Word) :
    quadReserved .sourceFigure w = some .reservedQRt1Bit5 ↔ w.getLsbD 6 = true ∧ w.getLsbD 5 = true := by
  rw [← extractLsb'_one_eq_one_iff w 5, ← Bool.not_eq_false, ← extractLsb'_one_eq_zero_iff, quadReserved]
  split
  · next h => simp [h]
  · split <;> simp [*]

/-- A format Q word is refused for one of two reasons, neither of which arises elsewhere (R80, R81). -/
theorem quadReserved_some_cases {l : QuadLayout} {w : Word} {e : DecodeError} (h : quadReserved l w = some e) :
    e = .reservedQFmt0 ∨ e = .reservedQRt1Bit5 := by
  cases l with
  | sourceFigure =>
    simp only [quadReserved] at h
    split at h
    · exact .inl (Option.some.inj h).symm
    split at h
    · exact .inr (Option.some.inj h).symm
    · cases h
  | toolchain =>
    simp only [quadReserved] at h
    split at h
    · exact .inl (Option.some.inj h).symm
    · cases h

theorem decodeQuad_eq_error_iff (l : QuadLayout) (b : Bool) (w : Word) (e : DecodeError) :
    decodeQuad l b w = .error e ↔ quadReserved l w = some e := by
  unfold decodeQuad
  cases quadReserved l w with
  | some d => simp
  | none => simp only [reduceCtorEq, iff_false]; split <;> nofun

/-- The two values of OP0 that select no instruction (R82). -/
theorem op0_reserved_iff (o : BitVec 3) :
    o = 4#3 ∨ o = 5#3 ↔ o ≠ 0#3 ∧ o ≠ 1#3 ∧ o ≠ 2#3 ∧ o ≠ 3#3 ∧ o ≠ 6#3 ∧ o ≠ 7#3 := by
  revert o; decide

theorem decodeIndexedLoad_eq_error_iff (w : Word) (e : DecodeError) :
    decodeIndexedLoad w = .error e ↔ (w.extractLsb' 0 3 = 4#3 ∨ w.extractLsb' 0 3 = 5#3) ∧ e = .reservedXOp0 := by
  simp only [decodeIndexedLoad, op0_reserved_iff]
  split_ifs <;> simp_all [eq_comm]

theorem decodeIndexedStore_eq_error_iff (w : Word) (e : DecodeError) :
    decodeIndexedStore w = .error e ↔ (w.extractLsb' 0 3 = 4#3 ∨ w.extractLsb' 0 3 = 5#3) ∧ e = .reservedXOp0 := by
  simp only [decodeIndexedStore, op0_reserved_iff]
  split_ifs <;> simp_all [eq_comm]

/-- Every refusal of the decoding procedure with its cause (R79). -/
theorem decodeWord_eq_error_iff (l : QuadLayout) (w : Word) (e : DecodeError) :
    decodeWord l w = .error e ↔
      (w.extractLsb' 26 6 = 0x32#6 ∨ w.extractLsb' 26 6 = 0x3A#6) ∧ quadReserved l w = some e
        ∨ (w.extractLsb' 26 6 = 0x36#6 ∨ w.extractLsb' 26 6 = 0x3E#6)
          ∧ (w.extractLsb' 0 3 = 4#3 ∨ w.extractLsb' 0 3 = 5#3) ∧ e = .reservedXOp0
        ∨ (w.extractLsb' 26 6 ≠ 0x32#6 ∧ w.extractLsb' 26 6 ≠ 0x36#6 ∧ w.extractLsb' 26 6 ≠ 0x3A#6
          ∧ w.extractLsb' 26 6 ≠ 0x3E#6) ∧ e = .notInScope := by
  by_cases h1 : w.extractLsb' 26 6 = opQuadLoad
  · rw [decodeWord_quadLoad h1, decodeQuad_eq_error_iff, h1]
    simp [opQuadLoad]
  by_cases h2 : w.extractLsb' 26 6 = opQuadStore
  · rw [decodeWord_quadStore h2, decodeQuad_eq_error_iff, h2]
    simp [opQuadStore]
  by_cases h3 : w.extractLsb' 26 6 = opIndexedLoad
  · rw [decodeWord_indexedLoad h3, decodeIndexedLoad_eq_error_iff, h3]
    simp [opIndexedLoad]
  by_cases h4 : w.extractLsb' 26 6 = opIndexedStore
  · rw [decodeWord_indexedStore h4, decodeIndexedStore_eq_error_iff, h4]
    simp [opIndexedStore]
  · have hother : decodeWord l w = .error .notInScope := by simp [decodeWord, h1, h2, h3, h4]
    simp only [opQuadLoad, opQuadStore, opIndexedLoad, opIndexedStore] at h1 h2 h3 h4
    simp [hother, h1, h2, h3, h4, eq_comm]

end Sys2Proof

namespace Sys2Proof.Machine

/-! ### Register 0, and the registers at reset -/

theorem State.writeGpr_zero (s : State) (v : Dword) : s.writeGpr 0#5 v = s := rfl

theorem State.readGpr_reset (r : RegNum) : State.reset.readGpr r = 0#64 := by
  simp [State.readGpr, State.reset]

theorem State.readFpr_reset (r : RegNum) : State.reset.readFpr r = 0#64 := by
  simp [State.readFpr, State.reset]

theorem existsAt_reset (a : Nat) : existsAt State.reset.ram a = true ↔ a < 2 ^ 64 := by
  simp [existsAt, Region.holds, State.reset]

end Sys2Proof.Machine

namespace Sys2Proof.Proofs

open Sys2Proof.Machine

/-- Settles O3, by evaluating the decoder on the seven words. -/
theorem specWordsDecode : Obligations.SpecWordsDecode := by
  unfold Obligations.SpecWordsDecode
  decide

/-- Settles O4: of the causes of a refusal, only that of a format Q word gives these two names. -/
theorem reservedQuadWordsRefused : Obligations.ReservedQuadWordsRefused := by
  unfold Obligations.ReservedQuadWordsRefused
  intro w
  rw [decodeWord_eq_error_iff, decodeWord_eq_error_iff, quadReserved_figure_eq_fmt0, quadReserved_figure_eq_bit5]
  simp

/-- Settles O5: of the causes of a refusal, none of a format Q word gives these two names. -/
theorem reservedIndexedAndForeignWordsRefused : Obligations.ReservedIndexedAndForeignWordsRefused := by
  unfold Obligations.ReservedIndexedAndForeignWordsRefused
  intro l w
  have hx : quadReserved l w ≠ some .reservedXOp0 := by
    intro h
    obtain he | he := quadReserved_some_cases h <;> cases he
  have hn : quadReserved l w ≠ some .notInScope := by
    intro h
    obtain he | he := quadReserved_some_cases h <;> cases he
  rw [decodeWord_eq_error_iff, decodeWord_eq_error_iff]
  simp [hx, hn]

/-- Settles O9: a read tests for register 0 and a write does too. -/
theorem generalRegisterZeroHardwired : Obligations.GeneralRegisterZeroHardwired := by
  unfold Obligations.GeneralRegisterZeroHardwired
  refine fun s r p v => ⟨s.readGpr_zero, s.writeGpr_zero v, fun hp => ?_⟩
  rw [State.readGpr_writeGpr]
  by_cases h : r = p
  · rw [if_pos h, if_pos ⟨h, h ▸ hp⟩]
  · rw [if_neg h, if_neg fun hr => h hr.1]

/-- Settles O10: the two files share no register, and `f[0]` is written as any other. -/
theorem floatingRegistersIndependent : Obligations.FloatingRegistersIndependent := by
  unfold Obligations.FloatingRegistersIndependent
  exact fun s r p v => ⟨s.readFpr_writeFpr r p v, s.readGpr_writeFpr r p v⟩

/-- Settles O11: the registers are replicated zeros, and the one region at reset has 2^64 bytes. -/
theorem resetHoldsTheLaunchOfTheLog : Obligations.ResetHoldsTheLaunchOfTheLog := by
  unfold Obligations.ResetHoldsTheLaunchOfTheLog
  exact ⟨fun r => ⟨State.readGpr_reset r, State.readFpr_reset r⟩, rfl, rfl, rfl, rfl, rfl, rfl, existsAt_reset, rfl⟩

end Sys2Proof.Proofs
end
